-- ==== Sys2Proof/Word.lean ====
section
/-! DEFINITION. The two word types of the hardware. All register values are unsigned (R6). -/

namespace Sys2Proof

/-- An 8-bit value: a general register, a timer, a memory byte (`XLEN`, R4). -/
abbrev Byte := BitVec 8

/-- A 16-bit value: `I`, `PC`, a stack entry, an instruction word (R4, R12, R15, R16, R60). -/
abbrev Half := BitVec 16

end Sys2Proof
end

