-- ==== Sys2Proof/Syntax.lean ====
section
/-! DEFINITION. The instructions: one constructor per mnemonic of `spec/opcode_table.json` (R66, and R160 for the
reserved words). The fields are those of the instruction's format (R61, R62); a field the decoder does not examine
(CLS, RET; `y` of SHR and SHL) and the word of a NOP are kept, so that no bit of an encoding is dropped. -/

namespace Sys2Proof

/-- The index of a general register (R10). -/
abbrev Reg := Fin 16

/-- A logical key, 0x0 to 0xF (R25). -/
abbrev Key := Fin 16

/-- The instruction set. -/
inductive Instr where
  /-- CLS `0..0` (R121); bits 11 to 4 are ignored (R64). -/
  | cls (ignored : Byte)
  /-- RET `0..E` (R81); bits 11 to 4 are ignored (R64). -/
  | ret (ignored : Byte)
  /-- JP `1nnn` (R80). -/
  | jp (nnn : BitVec 12)
  /-- CALL `2nnn` (R82). -/
  | call (nnn : BitVec 12)
  /-- SE_I `3xnn` (R91). -/
  | seImm (x : Reg) (nn : Byte)
  /-- SNE_I `4xnn` (R92). -/
  | sneImm (x : Reg) (nn : Byte)
  /-- SE_R `5xy0` (R93). -/
  | seReg (x y : Reg)
  /-- LD_I `6xnn` (R102). -/
  | ldImm (x : Reg) (nn : Byte)
  /-- ADD_I `7xnn` (R103). -/
  | addImm (x : Reg) (nn : Byte)
  /-- MOV `8xy0` (R104). -/
  | mov (x y : Reg)
  /-- OR `8xy1` (R105). -/
  | or (x y : Reg)
  /-- AND `8xy2` (R106). -/
  | and (x y : Reg)
  /-- XOR `8xy3` (R107). -/
  | xor (x y : Reg)
  /-- ADD_R `8xy4` (R108). -/
  | addReg (x y : Reg)
  /-- SUB `8xy5` (R109). -/
  | sub (x y : Reg)
  /-- SHR `8xy6` (R110). -/
  | shr (x y : Reg)
  /-- SUBN `8xy7` (R111). -/
  | subn (x y : Reg)
  /-- SHL `8xyE` (R112). -/
  | shl (x y : Reg)
  /-- SNE_R `9xy0` (R94). -/
  | sneReg (x y : Reg)
  /-- LDI `Annn` (R113). -/
  | ldIndex (nnn : BitVec 12)
  /-- JP_V0 `Bnnn` (R83). -/
  | jpV0 (nnn : BitVec 12)
  /-- RND `Cxnn` (R115). -/
  | rnd (x : Reg) (nn : Byte)
  /-- DRW `Dxyn` (R124); `n` is a row count. -/
  | drw (x y : Reg) (n : Fin 16)
  /-- SKP `Ex9E` (R131). -/
  | skp (x : Reg)
  /-- SKNP `ExA1` (R132). -/
  | sknp (x : Reg)
  /-- LD_DT `Fx07` (R141). -/
  | ldDt (x : Reg)
  /-- WAITKEY `Fx0A` (R133). -/
  | waitKey (x : Reg)
  /-- ST_DT `Fx15` (R142). -/
  | stDt (x : Reg)
  /-- ST_ST `Fx18` (R143). -/
  | stSt (x : Reg)
  /-- ADDI `Fx1E` (R114). -/
  | addIndex (x : Reg)
  /-- FONT `Fx29` (R125). -/
  | font (x : Reg)
  /-- BCD `Fx33` (R151). -/
  | bcd (x : Reg)
  /-- STM `Fx55` (R152); `x` is the last register stored. -/
  | stm (x : Reg)
  /-- LDM `Fx65` (R153); `x` is the last register loaded. -/
  | ldm (x : Reg)
  /-- NOP: any reserved word (R160), given in full (R70). -/
  | nop (op : Half)
  deriving DecidableEq, Repr

end Sys2Proof
end

