-- ==== Sys2Proof/Config.lean ====
section
/-! DEFINITION. What one implementation fixes: the sizes of R4 and the parameters of R5 with their defaults; what the host
can do to the machine, as data; and the two free values of the model, the random byte (R30, U5) and the host's move (R28,
R178). -/

/-! ## The host's moves -/

namespace Sys2Proof.Machine

/-- The inputs of one tick (R171, R28, R29). The random byte is drawn by RND alone (R177): see `State.randIn`. -/
structure TickIn where
  timerDue : Bool
  instrDue : Bool
  keyEvent : Option Key
  deriving DecidableEq, Repr

/-- What the host can do to the machine: reset (R220), the program load (R224), the keypad writes (R25), a tick (R171). -/
inductive HostMove where
  | reset
  | load (bytes : List Byte)
  | press (k : Key)
  | release (k : Key)
  | tick (t : TickIn)
  deriving DecidableEq, Repr, Inhabited

end Sys2Proof.Machine

/-! ## Sizes, parameters and free values -/

namespace Sys2Proof.Config

/-- `MEM_SIZE` (R4): addresses 0x000 to 0xFFF. -/
def memSize : Nat := 4096

/-- `ORIGIN` (R4): where the program is loaded, and the reset value of `PC` (R36). -/
def origin : Nat := 0x200

/-- `ROM_MAX` (R4): the largest loadable program, `MEM_SIZE − ORIGIN`. -/
def romMax : Nat := 3584

/-- The last valid instruction slot (R47): a fetch needs `PC ≤ 0x0FFE`. -/
def lastSlot : Nat := 0x0FFE

/-- `GLYPH_STRIDE` (R4): glyph `d` stands at `d × 5`. -/
def glyphStride : Nat := 5

/-- `STACK_DEPTH` (R4). -/
def stackDepth : Nat := 16

/-- `FB_W` (R4): framebuffer columns. -/
def fbWidth : Nat := 64

/-- `FB_H` (R4): framebuffer rows. -/
def fbHeight : Nat := 32

/-- The two readings of the register that `8xy6` and `8xyE` shift (U9, D13). -/
inductive ShiftSource where
  | vx
  | vy
  deriving DecidableEq, Repr

/-- `SHIFT_SOURCE` (R5, D13): `V[x]` is shifted in place. Log 10. -/
def shiftSource : ShiftSource := .vx

/-- `FAMILY0_EXACT` (R5, D11): family 0 is decoded by its low nibble alone. Log 11. -/
def family0Exact : Bool := false

/-- `SUB_FLAG_ON_EQUAL` (R5, U6): `VF` of SUB and SUBN on equal operands; the strict `>` of R109 gives 0. Log 12. -/
def subFlagOnEqual : Bool := false

/-- `FONT` (R5, R13): the default table of R13, sixteen glyphs of five bytes. PRESUMED: the bytes are marked there as
general knowledge, not the source's (D19). Log 5. -/
def font : List Byte :=
  [0xF0, 0x90, 0x90, 0x90, 0xF0] ++ [0x20, 0x60, 0x20, 0x20, 0x70] ++
  [0xF0, 0x10, 0xF0, 0x80, 0xF0] ++ [0xF0, 0x10, 0xF0, 0x10, 0xF0] ++
  [0x90, 0x90, 0xF0, 0x10, 0x10] ++ [0xF0, 0x80, 0xF0, 0x10, 0xF0] ++
  [0xF0, 0x80, 0xF0, 0x90, 0xF0] ++ [0xF0, 0x10, 0x20, 0x40, 0x40] ++
  [0xF0, 0x90, 0xF0, 0x90, 0xF0] ++ [0xF0, 0x90, 0xF0, 0x10, 0xF0] ++
  [0xF0, 0x90, 0xF0, 0x90, 0x90] ++ [0xE0, 0x90, 0xE0, 0x90, 0xE0] ++
  [0xF0, 0x80, 0x80, 0x80, 0xF0] ++ [0xE0, 0x90, 0x90, 0x90, 0xE0] ++
  [0xF0, 0x80, 0xF0, 0x80, 0xF0] ++ [0xF0, 0x80, 0xF0, 0x80, 0x80]

/-- The byte the random collaborator presents to the `n`-th draw when the state's own list of coming bytes is used up
(R30, U5, D27): a FREE VALUE, it has no body and nothing can be proved of it. Log 3. -/
opaque rand : Nat → Byte

/-- The host's `n`-th move, where the state's own list of coming moves is used up (R28: every schedule of the two enables is
an execution; R178: so is every interleaving with the host's other moves; U12, U13, U14): a FREE VALUE, it has no body and
nothing can be proved of it. Log 2. -/
opaque hostMove : Nat → Machine.HostMove

end Sys2Proof.Config
end

