-- ==== Sys2Proof/WellFormed.lean ====
section
/-! DEFINITION. Which terms of `Instr` are instructions of the hardware. The types bound every field, so two things are
left to check: a NOP's word lies in the reserved space of R67, and under the switch `FAMILY0_EXACT` (D11) CLS and RET
have their canonical bits. -/

namespace Sys2Proof

/-- The reserved space of R67, by family, low nibble and low byte of the word. -/
def reserved (op : Half) : Bool :=
  let n := op.toNat % 16
  let nn := op.toNat % 256
  match op.toNat / 4096 with
  | 0x0 => if Config.family0Exact then op.toNat != 0x00E0 && op.toNat != 0x00EE else n != 0x0 && n != 0xE
  | 0x5 => n != 0
  | 0x8 => [0x8, 0x9, 0xA, 0xB, 0xC, 0xD, 0xF].contains n
  | 0x9 => n != 0
  | 0xE => !([0x9E, 0xA1].contains nn)
  | 0xF => !([0x07, 0x0A, 0x15, 0x18, 0x1E, 0x29, 0x33, 0x55, 0x65].contains nn)
  | _ => false

/-- Bits 11 to 4 of a CLS or RET: not examined (R64), except under `FAMILY0_EXACT` (D11). -/
def ignoredBitsOk (m : Byte) : Bool := !Config.family0Exact || m == 0x0E

/-- Well-formedness of an instruction. -/
def Instr.wf : Instr → Bool
  | .cls m => ignoredBitsOk m
  | .ret m => ignoredBitsOk m
  | .jp _ => true
  | .call _ => true
  | .seImm _ _ => true
  | .sneImm _ _ => true
  | .seReg _ _ => true
  | .ldImm _ _ => true
  | .addImm _ _ => true
  | .mov _ _ => true
  | .or _ _ => true
  | .and _ _ => true
  | .xor _ _ => true
  | .addReg _ _ => true
  | .sub _ _ => true
  | .shr _ _ => true
  | .subn _ _ => true
  | .shl _ _ => true
  | .sneReg _ _ => true
  | .ldIndex _ => true
  | .jpV0 _ => true
  | .rnd _ _ => true
  | .drw _ _ _ => true
  | .skp _ => true
  | .sknp _ => true
  | .ldDt _ => true
  | .waitKey _ => true
  | .stDt _ => true
  | .stSt _ => true
  | .addIndex _ => true
  | .font _ => true
  | .bcd _ => true
  | .stm _ => true
  | .ldm _ => true
  | .nop op => reserved op

end Sys2Proof
end

