-- ==== Sys2Proof/Decode.lean ====
section
/-! DEFINITION. Decoding, total on the 65536 instruction words (R67: any two bytes decode to something), and the
encoder. Fields: R8, R62; the two levels of the decoder: R63 to R65; byte order: R44. -/

namespace Sys2Proof

/-! ## Fields of an instruction word (R8) -/

/-- `family = op[15:12]`, as the number the decoder selects by. -/
def opFamily (op : Half) : Nat := (op.extractLsb' 12 4).toNat

/-- `x = op[11:8]`. -/
def opX (op : Half) : Reg := (op.extractLsb' 8 4).toFin

/-- `y = op[7:4]`. -/
def opY (op : Half) : Reg := (op.extractLsb' 4 4).toFin

/-- `n = op[3:0]`. -/
def opN (op : Half) : Fin 16 := (op.extractLsb' 0 4).toFin

/-- `nn = op[7:0]`. -/
def opNN (op : Half) : Byte := op.extractLsb' 0 8

/-- `nnn = op[11:0]`. -/
def opNNN (op : Half) : BitVec 12 := op.extractLsb' 0 12

/-- Bits 11 to 4, the ones format `Z` ignores (R61, R64). -/
def opIgnored (op : Half) : Byte := op.extractLsb' 4 8

/-! ## Decoding -/

/-- Family 0, by low nibble (R64); under `FAMILY0_EXACT` only the words `00E0` and `00EE` (D11). -/
def decodeFamily0 (op : Half) : Instr :=
  if Config.family0Exact && opIgnored op != 0x0E then .nop op
  else match (opN op).val with
    | 0x0 => .cls (opIgnored op)
    | 0xE => .ret (opIgnored op)
    | _ => .nop op

/-- Family 8, by low nibble (R63, R65). -/
def decodeFamily8 (op : Half) : Instr :=
  match (opN op).val with
  | 0x0 => .mov (opX op) (opY op)
  | 0x1 => .or (opX op) (opY op)
  | 0x2 => .and (opX op) (opY op)
  | 0x3 => .xor (opX op) (opY op)
  | 0x4 => .addReg (opX op) (opY op)
  | 0x5 => .sub (opX op) (opY op)
  | 0x6 => .shr (opX op) (opY op)
  | 0x7 => .subn (opX op) (opY op)
  | 0xE => .shl (opX op) (opY op)
  | _ => .nop op

/-- Family E, by low byte (R63). -/
def decodeFamilyE (op : Half) : Instr :=
  match (opNN op).toNat with
  | 0x9E => .skp (opX op)
  | 0xA1 => .sknp (opX op)
  | _ => .nop op

/-- Family F, by low byte (R63). -/
def decodeFamilyF (op : Half) : Instr :=
  match (opNN op).toNat with
  | 0x07 => .ldDt (opX op)
  | 0x0A => .waitKey (opX op)
  | 0x15 => .stDt (opX op)
  | 0x18 => .stSt (opX op)
  | 0x1E => .addIndex (opX op)
  | 0x29 => .font (opX op)
  | 0x33 => .bcd (opX op)
  | 0x55 => .stm (opX op)
  | 0x65 => .ldm (opX op)
  | _ => .nop op

/-- The decoder: total, and a function of the word alone (R63, R67, R176). The last arm is family F. -/
def decode (op : Half) : Instr :=
  match opFamily op with
  | 0x0 => decodeFamily0 op
  | 0x1 => .jp (opNNN op)
  | 0x2 => .call (opNNN op)
  | 0x3 => .seImm (opX op) (opNN op)
  | 0x4 => .sneImm (opX op) (opNN op)
  | 0x5 => if opN op = 0 then .seReg (opX op) (opY op) else .nop op
  | 0x6 => .ldImm (opX op) (opNN op)
  | 0x7 => .addImm (opX op) (opNN op)
  | 0x8 => decodeFamily8 op
  | 0x9 => if opN op = 0 then .sneReg (opX op) (opY op) else .nop op
  | 0xA => .ldIndex (opNNN op)
  | 0xB => .jpV0 (opNNN op)
  | 0xC => .rnd (opX op) (opNN op)
  | 0xD => .drw (opX op) (opY op) (opN op)
  | 0xE => decodeFamilyE op
  | _ => decodeFamilyF op

/-- Why a byte sequence gives no instruction. No word is illegal (R68), so there is one reason. -/
inductive DecodeReject where
  /-- Fewer than the two bytes of an instruction (R60). -/
  | truncated
  deriving DecidableEq, Repr

/-- The instruction at the head of a byte sequence and the bytes after it: two bytes, big-endian (R44, R60). -/
def decodeBytes : List Byte → Except DecodeReject (Instr × List Byte)
  | hi :: lo :: rest => .ok (decode (hi ++ lo), rest)
  | _ => .error .truncated

/-! ## Encoding -/

/-- A register, key or count field as the four bits of a word. -/
def nib (x : Fin 16) : BitVec 4 := BitVec.ofFin x

/-- Format `XNN` (R61). -/
def wordXNN (fam : BitVec 4) (x : Reg) (nn : Byte) : Half := fam ++ nib x ++ nn

/-- Formats `XY` and `XYN` (R61). -/
def wordXYN (fam : BitVec 4) (x y : Reg) (n : BitVec 4) : Half := fam ++ nib x ++ nib y ++ n

/-- Format `NNN` (R61). -/
def wordNNN (fam : BitVec 4) (nnn : BitVec 12) : Half := fam ++ nnn

/-- Format `Z` (R61). -/
def wordZ (m : Byte) (n : BitVec 4) : Half := 0x0#4 ++ m ++ n

/-- The encoder, from the patterns of R66. -/
def encode : Instr → Half
  | .cls m => wordZ m 0x0
  | .ret m => wordZ m 0xE
  | .jp nnn => wordNNN 0x1 nnn
  | .call nnn => wordNNN 0x2 nnn
  | .seImm x nn => wordXNN 0x3 x nn
  | .sneImm x nn => wordXNN 0x4 x nn
  | .seReg x y => wordXYN 0x5 x y 0x0
  | .ldImm x nn => wordXNN 0x6 x nn
  | .addImm x nn => wordXNN 0x7 x nn
  | .mov x y => wordXYN 0x8 x y 0x0
  | .or x y => wordXYN 0x8 x y 0x1
  | .and x y => wordXYN 0x8 x y 0x2
  | .xor x y => wordXYN 0x8 x y 0x3
  | .addReg x y => wordXYN 0x8 x y 0x4
  | .sub x y => wordXYN 0x8 x y 0x5
  | .shr x y => wordXYN 0x8 x y 0x6
  | .subn x y => wordXYN 0x8 x y 0x7
  | .shl x y => wordXYN 0x8 x y 0xE
  | .sneReg x y => wordXYN 0x9 x y 0x0
  | .ldIndex nnn => wordNNN 0xA nnn
  | .jpV0 nnn => wordNNN 0xB nnn
  | .rnd x nn => wordXNN 0xC x nn
  | .drw x y n => wordXYN 0xD x y (nib n)
  | .skp x => wordXNN 0xE x 0x9E
  | .sknp x => wordXNN 0xE x 0xA1
  | .ldDt x => wordXNN 0xF x 0x07
  | .waitKey x => wordXNN 0xF x 0x0A
  | .stDt x => wordXNN 0xF x 0x15
  | .stSt x => wordXNN 0xF x 0x18
  | .addIndex x => wordXNN 0xF x 0x1E
  | .font x => wordXNN 0xF x 0x29
  | .bcd x => wordXNN 0xF x 0x33
  | .stm x => wordXNN 0xF x 0x55
  | .ldm x => wordXNN 0xF x 0x65
  | .nop op => op

/-- The high byte of a word: the one at the lower address (R44). -/
def hiByte (w : Half) : Byte := w.extractLsb' 8 8

/-- The low byte of a word: the one at the higher address (R44). -/
def loByte (w : Half) : Byte := w.extractLsb' 0 8

/-- The two bytes of an instruction as memory holds them (R44). -/
def encodeBytes (i : Instr) : List Byte := [hiByte (encode i), loByte (encode i)]

/-! ## The opcode table's words -/

/-- A table word `w` of `nbits` bits as the 16-bit instruction word (one word, bit 15 the top bit of the first byte, R6);
bits above `nbits` are zero. -/
def tableWord (nbits w : Nat) : Half := BitVec.ofNat 16 (w % 2 ^ nbits)

/-- What the decoder reads from a row's word laid out in bytes. -/
def decodeTableWord (nbits w : Nat) : Option Instr :=
  match decodeBytes [hiByte (tableWord nbits w), loByte (tableWord nbits w)] with
  | .ok (i, _) => some i
  | .error _ => none

end Sys2Proof
end

