-- ==== Sys2Proof/Machine/State.lean ====
section
/-! DEFINITION. The machine's state as plain data: every piece of `10_state.md`, the load port of R27 and R222, and the
host's inputs still to come. -/

namespace Sys2Proof.Machine

/-- The four fatal runtime conditions of R190. They are part of the machine's state (`RUN`), not ways for the model to
stop. -/
inductive Cause where
  | pcOutOfRange
  | stackOverflow
  | stackUnderflow
  | memOutOfBounds
  deriving DecidableEq, Repr

/-- `RUN` (R22). The register index exists only while the latch is set (R21). -/
inductive RunState where
  | running
  | awaitingKey (r : Reg)
  | halted (cause : Cause) (pc info : Half)
  deriving DecidableEq, Repr

/-- The load port (R27, R34, R222): its one load is `pending` from reset to the first tick; then it has happened with one
of its two results, or the first tick came without it. -/
inductive LoadPort where
  | pending
  | loaded
  | outOfSpace
  | missed
  deriving DecidableEq, Repr

/-- The ways the model stops with a fault: NONE. Every fault of the spec (R190) is entered as R196 describes and leaves a
next state, so this type has no constructor and no step can answer a fault (safe: nothing of the hardware is lost). -/
inductive Fault where
  deriving DecidableEq, Repr

/-- The ways the model refuses. -/
inductive Refusal where
  /-- Raised by an arm of `exec` whose instruction has no meaning yet; no arm is left. Safe. -/
  | notModelled (mnemonic : String)
  /-- Raised by the host move `load` after the first tick or after another load: not a move of the machine (R222, U15,
  D28). Safe. -/
  | lateLoad
  /-- Raised by a tick after a failed load: "a model treats a failed load as no run" (R224). Safe. -/
  | runAfterFailedLoad
  deriving DecidableEq, Repr

/-- The state. -/
structure State where
  /-- `V[0..15]` (R10, R11). -/
  v : Vector Byte 16
  /-- `I` (R12). -/
  i : Half
  /-- `PC` (R15). -/
  pc : Half
  /-- `STACK[0..15]` (R16). -/
  stack : Vector Half 16
  /-- `SP`, 0 to 16 (R16, R19). -/
  sp : Fin 17
  /-- `DT` (R17). -/
  dt : Byte
  /-- `ST` (R17). -/
  st : Byte
  /-- `RUN` (R22). -/
  run : RunState
  /-- `FB` (R24): row `y`, whose bit `x` is the cell `FB[y][x]`. -/
  fb : Vector (BitVec 64) 32
  /-- `KEYS` (R25): bit `k` is key `k`. -/
  keys : BitVec 16
  /-- `MEM` (R13) in canonical form: addresses strictly rising, no entry equal to the address's reset byte. -/
  mem : List Host.Cell
  /-- The load port (R27, R222, R224). -/
  loadPort : LoadPort
  /-- The host's moves still to come, oldest first. The MODEL's own field: an input, log 1. -/
  inbox : List HostMove
  /-- How many moves the host has made: the argument of the free value `Config.hostMove`. The MODEL's own field, log 2. -/
  moves : Nat
  /-- The random bytes the coming draws will be given, oldest first (R30). The MODEL's own field: an input, log 3. -/
  randIn : List Byte
  /-- How many random bytes have been drawn: the argument of the free value `Config.rand`. The MODEL's own field, log 3. -/
  draws : Nat
  deriving DecidableEq, Repr

/-- The machine right after reset (R36, R220), with no host move and no random byte waiting. -/
def State.reset : State where
  v := Vector.replicate 16 0
  i := 0
  pc := 0x0200
  stack := Vector.replicate 16 0
  sp := 0
  dt := 0
  st := 0
  run := .running
  fb := Vector.replicate 32 0
  keys := 0
  mem := []
  loadPort := .pending
  inbox := []
  moves := 0
  randIn := []
  draws := 0

/-- The outcome of an instruction, of a host move and of a step. -/
abbrev Result := Host.Outcome State Fault Refusal

end Sys2Proof.Machine
end

