-- ==== Sys2Proof/Machine/Memory.lean ====
section
/-! DEFINITION. Memory: 4096 bytes in one space (R13, R40), held as the list of the bytes that differ from reset. -/

namespace Sys2Proof.Machine

/-- What an address reads as at reset (R13, R42): the font at 0x000 to 0x04F, zero elsewhere. -/
def Memory.resetByte (a : Nat) : Byte := Config.font.getD a 0

/-- The entry listed for an address. -/
def Memory.lookup : List Host.Cell → Nat → Option Byte
  | [], _ => none
  | (k, b) :: m, a => if k = a then some b else Memory.lookup m a

/-- `MEM[a]` (R7), with no bounds check. -/
def Memory.get (m : List Host.Cell) (a : Nat) : Byte := (Memory.lookup m a).getD (Memory.resetByte a)

/-- List a byte for an address, in address order. -/
def Memory.put : List Host.Cell → Nat → Byte → List Host.Cell
  | [], a, b => [(a, b)]
  | (k, c) :: m, a, b =>
    if a < k then (a, b) :: (k, c) :: m else if a = k then (a, b) :: m else (k, c) :: Memory.put m a b

/-- `MEM[a] <- b` (R7), with no bounds check: a byte equal to the reset byte is not listed. -/
def Memory.set (m : List Host.Cell) (a : Nat) (b : Byte) : List Host.Cell :=
  if b = Memory.resetByte a then m.filter (fun c => c.1 != a) else Memory.put m a b

/-- The canonical form from address `lo` up. -/
def Memory.wfFrom : Nat → List Host.Cell → Bool
  | _, [] => true
  | lo, (k, b) :: m =>
    decide (lo ≤ k) && decide (k < Config.memSize) && b != Memory.resetByte k && Memory.wfFrom (k + 1) m

/-- The canonical form of memory: addresses strictly rising and below 4096, no entry equal to the reset byte. -/
def Memory.wf (m : List Host.Cell) : Bool := Memory.wfFrom 0 m

/-- The `n` bytes from address `a` up, ascending (R43). -/
def Memory.getBytes (m : List Host.Cell) (a : Nat) : Nat → List Byte
  | 0 => []
  | n + 1 => Memory.get m a :: Memory.getBytes m (a + 1) n

/-- Store bytes from address `a` up, ascending (R43). -/
def Memory.setBytes (m : List Host.Cell) (a : Nat) : List Byte → List Host.Cell
  | [] => m
  | b :: bs => Memory.setBytes (Memory.set m a b) (a + 1) bs

end Sys2Proof.Machine
end

