-- ==== Sys2Proof/Machine/Ops.lean ====
section
/-! DEFINITION. The named operations over registers, stack, memory and run state that the meanings share, entering a
fault among them (R196). There is no return from a fault to stand beside it: R198 says that only reset leaves `Halted`. -/

namespace Sys2Proof.Machine

/-! ## Register writes (R7: `r <- v`) -/

/-- `V[x] <- b`. -/
def State.setV (s : State) (x : Reg) (b : Byte) : State := { s with v := s.v.set x b }

/-- `I <- a`. -/
def State.setI (s : State) (a : Half) : State := { s with i := a }

/-- `PC <- a`. -/
def State.setPc (s : State) (a : Half) : State := { s with pc := a }

/-- `DT <- b`. -/
def State.setDt (s : State) (b : Byte) : State := { s with dt := b }

/-- `ST <- b`. -/
def State.setSt (s : State) (b : Byte) : State := { s with st := b }

/-- `RUN <- r`. -/
def State.setRun (s : State) (r : RunState) : State := { s with run := r }

/-- Replace the framebuffer. -/
def State.setFb (s : State) (f : Vector (BitVec 64) 32) : State := { s with fb := f }

/-- Replace the keypad register. -/
def State.setKeys (s : State) (k : BitVec 16) : State := { s with keys := k }

/-- Replace the memory. -/
def State.setMem (s : State) (m : List Host.Cell) : State := { s with mem := m }

/-! ## Faults -/

/-- The cause codes of R190. -/
def Cause.code : Cause → Nat
  | .pcOutOfRange => 1
  | .stackOverflow => 2
  | .stackUnderflow => 3
  | .memOutOfBounds => 4

/-- Entering a fault (R196): `PC` is the faulting instruction's address and `RUN` records the cause, that address and
`info`; nothing else changes. Every check of an instruction stands before its first write, so the advance of `PC` is
all there is to roll back. -/
def enterFault (c : Cause) (pc0 info : Half) (s : State) : State := (s.setPc pc0).setRun (.halted c pc0 info)

/-- `raise` in an instruction's body (R7, R196), where `PC` is already `pc0 + 2` (R175). -/
def raise (c : Cause) (info : Half) (s : State) : State := enterFault c (s.pc - 2) info s

/-! ## Data memory (R46, R150) -/

/-- Some address of `base + 0 .. base + len − 1` lies above 0xFFF, on unbounded integers (R46, R124). -/
def outOfRange (base : Half) (len : Nat) : Bool := decide (0 < len) && decide (0xFFF < base.toNat + len - 1)

/-- The first address out of range, `max(I, 0x1000)` (R190). -/
def firstBadAddress (base : Half) : Half := if base.toNat < 0x1000 then 0x1000 else base

/-- Check the whole range of an access at `I` of `len` bytes before anything changes (R46): the fault, or `ok`. -/
def withRange (len : Nat) (s : State) (ok : State) : State :=
  if outOfRange s.i len then raise .memOutOfBounds (firstBadAddress s.i) s else ok

/-- The `len` bytes at `I`, ascending. -/
def State.bytesAtI (s : State) (len : Nat) : List Byte := Memory.getBytes s.mem s.i.toNat len

/-- Store bytes at `I`, ascending; `I` does not move (R150). -/
def State.storeAtI (s : State) (bs : List Byte) : State := s.setMem (Memory.setBytes s.mem s.i.toNat bs)

/-! ## Call stack (R16) -/

/-- Push a return address and go on at `target` (R82); a full stack raises `StackOverflow` (R192). -/
def call (target : Half) (s : State) : State :=
  if h : s.sp.val < 16 then
    { s with stack := s.stack.set s.sp.val s.pc, sp := ⟨s.sp.val + 1, by omega⟩, pc := target }
  else raise .stackOverflow 16 s

/-- Pop a return address into `PC` (R81); the entry is not cleared. An empty stack raises `StackUnderflow` (R193). -/
def ret (s : State) : State :=
  if h : s.sp.val = 0 then raise .stackUnderflow 0 s
  else { s with sp := ⟨s.sp.val - 1, by omega⟩, pc := s.stack[s.sp.val - 1] }

/-! ## Random bytes (R30) -/

/-- The byte the random collaborator presents to the next draw: the next byte of the state's list, else the free value. -/
def State.randByte (s : State) : Byte :=
  match s.randIn with
  | b :: _ => b
  | [] => Config.rand s.draws

/-- A draw uses its byte up. -/
def State.drawn (s : State) : State := { s with randIn := s.randIn.tail, draws := s.draws + 1 }

/-! ## Output ports -/

/-- `TONE` (R18, R33): a function of `ST`. -/
def State.tone (s : State) : Bool := s.st != 0

/-- The `status` port (R34). -/
def State.status (s : State) : RunState := s.run

end Sys2Proof.Machine
end

