-- ==== Sys2Proof/Machine/Operands.lean ====
section
/-! DEFINITION. Operand forms: registers, literals, the shifted register, the key a register names, the framebuffer cell
a pair of coordinates names. -/

namespace Sys2Proof.Machine

/-- `V[x]` (R7, R62). -/
def State.reg (s : State) (x : Reg) : Byte := s.v[x]

/-- `zext_16` of a 12-bit literal (R62). -/
def zextNNN (nnn : BitVec 12) : Half := nnn.setWidth 16

/-- `zext_16` of a byte (R6). -/
def zextByte (b : Byte) : Half := b.setWidth 16

/-- The register SHR and SHL shift, under either reading of `SHIFT_SOURCE` (R110, R112, D13). -/
def shiftOperand (src : Config.ShiftSource) (x y : Reg) (s : State) : Byte :=
  match src with
  | .vx => s.reg x
  | .vy => s.reg y

/-- `is_pressed(k) = KEYS[k]` (R25). -/
def State.isPressed (s : State) (k : Key) : Bool := s.keys.getLsbD k.val

/-- `held(v)` (R130): a value above 0x0F is no key. -/
def held (b : Byte) (s : State) : Bool := if h : b.toNat ≤ 0x0F then s.isPressed ⟨b.toNat, by omega⟩ else false

/-- `V[0] .. V[x]`, ascending (R152). -/
def State.regsUpTo (s : State) (x : Reg) : List Byte := s.v.toList.take (x.val + 1)

/-- `V[0] .. V[x]` replaced by a list of bytes, ascending; the registers after `x` keep their values (R153). -/
def State.loadRegs (s : State) (x : Reg) (bs : List Byte) : State :=
  { s with v := Vector.ofFn fun k : Fin 16 => if k.val ≤ x.val then bs.getD k.val 0 else s.v[k] }

/-- The cell `FB[y][x]` of a grid (R24), for coordinates in range. -/
def cell (f : Vector (BitVec 64) 32) (x y : Nat) : Bool := (f[y]?.getD 0).getLsbD x

/-- The `fb` port (R32): column `x`, row `y`. -/
def State.pixel (s : State) (x : Fin 64) (y : Fin 32) : Bool := cell s.fb x.val y.val

end Sys2Proof.Machine
end

