-- ==== Sys2Proof/Machine/Flags.lean ====
section
/-! DEFINITION. The flag computations: what ADD_R, SUB, SUBN, SHR, SHL and DRW put into `VF` (R11), always 0 or 1, and the
order of the two writes (R100). -/

namespace Sys2Proof.Machine

/-- A flag as the value of `VF`: exactly 0 or 1 (R11). -/
def flagByte (b : Bool) : Byte := if b then 1 else 0

/-- Carry of an addition (R108): the sum passes 255. -/
def carry (a b : Byte) : Bool := decide (255 < a.toNat + b.toNat)

/-- The flag of a subtraction `a − b` (R109, R111): `a` strictly above `b`; on equal operands the switch decides (U6). -/
def above (onEqual : Bool) (a b : Byte) : Bool := decide (b.toNat < a.toNat) || (onEqual && a == b)

/-- Bit 0 before a right shift (R110). -/
def shiftedOutLow (a : Byte) : Bool := a.getLsbD 0

/-- Bit 7 before a left shift (R112). -/
def shiftedOutHigh (a : Byte) : Bool := a.getLsbD 7

/-- The index of `VF` (R11). -/
def vf : Reg := 15

/-- Write the result, then the flag (R100): with `x = 0xF` the flag survives. -/
def State.setResultFlag (s : State) (x : Reg) (result : Byte) (flag : Bool) : State :=
  (s.setV x result).setV vf (flagByte flag)

end Sys2Proof.Machine
end

