-- ==== Sys2Proof/Machine/Control.lean ====
section
/-! DEFINITION. Control transfer (`40_control.md`). On entry `PC` is already past the instruction; a target is not checked
here but by the next fetch (R174). -/

namespace Sys2Proof.Machine

/-- JP (R80). -/
def execJp (nnn : BitVec 12) (s : State) : Result := .next (s.setPc (zextNNN nnn))

/-- RET (R81). -/
def execRet (_ignored : Byte) (s : State) : Result := .next (ret s)

/-- CALL (R82). -/
def execCall (nnn : BitVec 12) (s : State) : Result := .next (call (zextNNN nnn) s)

/-- JP_V0 (R83). -/
def execJpV0 (nnn : BitVec 12) (s : State) : Result := .next (s.setPc (zextNNN nnn + zextByte (s.reg 0)))

end Sys2Proof.Machine
end

