-- ==== Sys2Proof/Machine/Display.lean ====
section
/-! DEFINITION. Display instructions (`43_display.md`). -/

namespace Sys2Proof.Machine

/-- `clear()` (R120). -/
def clearedFb : Vector (BitVec 64) 32 := Vector.replicate 32 0

/-- `xor_pixel(x, y, value)` (R122): the grid after it, and whether a set cell was erased. -/
def xorPixel (f : Vector (BitVec 64) 32) (x y : Nat) (value : Bool) : Vector (BitVec 64) 32 × Bool :=
  let cx := x % Config.fbWidth
  let cy := y % Config.fbHeight
  let old := cell f cx cy
  (f.setIfInBounds cy ((f[cy]?.getD 0) ^^^ (if value then BitVec.twoPow 64 cx else 0)), old && value)

/-- The pixels of one sprite row from column offset `col` on, for `k` more columns, "MSB first"; at the right edge the
rest of the row is dropped (R123, R124). -/
def drawCols (f : Vector (BitVec 64) 32) (hit : Bool) (x0 y : Nat) (b : Byte) (col : Nat) :
    Nat → Vector (BitVec 64) 32 × Bool
  | 0 => (f, hit)
  | k + 1 =>
    if 63 < x0 + col then (f, hit)
    else
      let r := xorPixel f (x0 + col) y (b.getLsbD (7 - col))
      drawCols r.1 (hit || r.2) x0 y b (col + 1) k

/-- The rows of a sprite from screen row `y` down; at the bottom edge the remaining rows are dropped (R123, R124). -/
def drawRows (f : Vector (BitVec 64) 32) (hit : Bool) (x0 y : Nat) : List Byte → Vector (BitVec 64) 32 × Bool
  | [] => (f, hit)
  | b :: bs =>
    if 31 < y then (f, hit)
    else
      let r := drawCols f hit x0 y b 0 8
      drawRows r.1 r.2 x0 (y + 1) bs

/-- CLS (R121). -/
def execCls (_ignored : Byte) (s : State) : Result := .next (s.setFb clearedFb)

/-- DRW (R124): the origin wraps, the extent clips, `VF` is written last and always. -/
def execDrw (x y : Reg) (n : Fin 16) (s : State) : Result :=
  let x0 := (s.reg x).toNat % Config.fbWidth
  let y0 := (s.reg y).toNat % Config.fbHeight
  let r := drawRows s.fb false x0 y0 (s.bytesAtI n.val)
  .next (withRange n.val s ((s.setFb r.1).setV vf (flagByte r.2)))

/-- FONT (R125): the whole byte times 5. -/
def execFont (x : Reg) (s : State) : Result := .next (s.setI (BitVec.ofNat 16 ((s.reg x).toNat * Config.glyphStride)))

end Sys2Proof.Machine
end

