-- ==== Sys2Proof/Machine/Skip.lean ====
section
/-! DEFINITION. Conditional skips (`41_skip.md`). -/

namespace Sys2Proof.Machine

/-- The skip (R90): two bytes further if the condition holds. -/
def skipIf (c : Bool) (s : State) : State := if c then s.setPc (s.pc + 2) else s

/-- SE_I (R91). -/
def execSeImm (x : Reg) (nn : Byte) (s : State) : Result := .next (skipIf (s.reg x == nn) s)

/-- SNE_I (R92). -/
def execSneImm (x : Reg) (nn : Byte) (s : State) : Result := .next (skipIf (s.reg x != nn) s)

/-- SE_R (R93). -/
def execSeReg (x y : Reg) (s : State) : Result := .next (skipIf (s.reg x == s.reg y) s)

/-- SNE_R (R94). -/
def execSneReg (x y : Reg) (s : State) : Result := .next (skipIf (s.reg x != s.reg y) s)

end Sys2Proof.Machine
end

