-- ==== Sys2Proof/Machine/Keypad.lean ====
section
/-! DEFINITION. Keypad instructions (`44_keypad.md`). What follows a WAITKEY is part of the tick (R173). -/

namespace Sys2Proof.Machine

/-- SKP (R131). -/
def execSkp (x : Reg) (s : State) : Result := .next (skipIf (held (s.reg x) s) s)

/-- SKNP (R132). -/
def execSknp (x : Reg) (s : State) : Result := .next (skipIf (!held (s.reg x) s) s)

/-- WAITKEY (R133). -/
def execWaitKey (x : Reg) (s : State) : Result := .next (s.setRun (.awaitingKey x))

end Sys2Proof.Machine
end

