-- ==== Sys2Proof/Machine/LoadAlu.lean ====
section
/-! DEFINITION. Loads of constants and register arithmetic (`42_load_alu.md`): sources are read first, the result is
written next, `VF` last (R100); all arithmetic wraps (R101). -/

namespace Sys2Proof.Machine

/-- LD_I (R102). -/
def execLdImm (x : Reg) (nn : Byte) (s : State) : Result := .next (s.setV x nn)

/-- ADD_I (R103): no flag. -/
def execAddImm (x : Reg) (nn : Byte) (s : State) : Result := .next (s.setV x (s.reg x + nn))

/-- MOV (R104). -/
def execMov (x y : Reg) (s : State) : Result := .next (s.setV x (s.reg y))

/-- OR (R105): no flag. -/
def execOr (x y : Reg) (s : State) : Result := .next (s.setV x (s.reg x ||| s.reg y))

/-- AND (R106): no flag. -/
def execAnd (x y : Reg) (s : State) : Result := .next (s.setV x (s.reg x &&& s.reg y))

/-- XOR (R107): no flag. -/
def execXor (x y : Reg) (s : State) : Result := .next (s.setV x (s.reg x ^^^ s.reg y))

/-- ADD_R (R108). -/
def execAddReg (x y : Reg) (s : State) : Result :=
  .next (s.setResultFlag x (s.reg x + s.reg y) (carry (s.reg x) (s.reg y)))

/-- SUB (R109). -/
def execSub (x y : Reg) (s : State) : Result :=
  .next (s.setResultFlag x (s.reg x - s.reg y) (above Config.subFlagOnEqual (s.reg x) (s.reg y)))

/-- SHR (R110). -/
def execShr (x y : Reg) (s : State) : Result :=
  let a := shiftOperand Config.shiftSource x y s
  .next (s.setResultFlag x (a >>> 1) (shiftedOutLow a))

/-- SUBN (R111). -/
def execSubn (x y : Reg) (s : State) : Result :=
  .next (s.setResultFlag x (s.reg y - s.reg x) (above Config.subFlagOnEqual (s.reg y) (s.reg x)))

/-- SHL (R112). -/
def execShl (x y : Reg) (s : State) : Result :=
  let a := shiftOperand Config.shiftSource x y s
  .next (s.setResultFlag x (a <<< 1) (shiftedOutHigh a))

/-- LDI (R113). -/
def execLdIndex (nnn : BitVec 12) (s : State) : Result := .next (s.setI (zextNNN nnn))

/-- ADDI (R114): modulo 65536, no flag. -/
def execAddIndex (x : Reg) (s : State) : Result := .next (s.setI (s.i + zextByte (s.reg x)))

/-- RND (R115). -/
def execRnd (x : Reg) (nn : Byte) (s : State) : Result := .next (s.drawn.setV x (s.randByte &&& nn))

end Sys2Proof.Machine
end

