-- ==== Sys2Proof/Machine/MemoryOps.lean ====
section
/-! DEFINITION. Memory instructions (`46_memory_ops.md`): register-indirect through `I`, which does not move (R150). -/

namespace Sys2Proof.Machine

/-- Hundreds, tens and ones of a byte, one digit a byte (R151). -/
def bcdDigits (b : Byte) : List Byte :=
  [BitVec.ofNat 8 (b.toNat / 100), BitVec.ofNat 8 (b.toNat / 10 % 10), BitVec.ofNat 8 (b.toNat % 10)]

/-- BCD (R151). -/
def execBcd (x : Reg) (s : State) : Result := .next (withRange 3 s (s.storeAtI (bcdDigits (s.reg x))))

/-- STM (R152). -/
def execStm (x : Reg) (s : State) : Result := .next (withRange (x.val + 1) s (s.storeAtI (s.regsUpTo x)))

/-- LDM (R153). -/
def execLdm (x : Reg) (s : State) : Result :=
  .next (withRange (x.val + 1) s (s.loadRegs x (s.bytesAtI (x.val + 1))))

end Sys2Proof.Machine
end

