-- ==== Sys2Proof/Machine/Nop.lean ====
section
/-! DEFINITION. Reserved encodings (`47_nop.md`). -/

namespace Sys2Proof.Machine

/-- NOP (R160): the step has already advanced `PC`; nothing else happens. -/
def execNop (_op : Half) (s : State) : Result := .next s

end Sys2Proof.Machine
end

