-- ==== Sys2Proof/Machine/Timer.lean ====
section
/-! DEFINITION. Timer instructions (`45_timer.md`). -/

namespace Sys2Proof.Machine

/-- LD_DT (R141). -/
def execLdDt (x : Reg) (s : State) : Result := .next (s.setV x s.dt)

/-- ST_DT (R142). -/
def execStDt (x : Reg) (s : State) : Result := .next (s.setDt (s.reg x))

/-- ST_ST (R143). -/
def execStSt (x : Reg) (s : State) : Result := .next (s.setSt (s.reg x))

end Sys2Proof.Machine
end

