-- ==== Sys2Proof/Machine/Dispatch.lean ====
section
/-! DEFINITION. Dispatch (R176): one meaning per instruction. -/

namespace Sys2Proof.Machine

def exec (i : Instr) (s : State) : Host.Outcome State Fault Refusal :=
  match i with
  | .cls m => Sys2Proof.Machine.execCls m s
  | .ret m => Sys2Proof.Machine.execRet m s
  | .jp nnn => Sys2Proof.Machine.execJp nnn s
  | .call nnn => Sys2Proof.Machine.execCall nnn s
  | .seImm x nn => Sys2Proof.Machine.execSeImm x nn s
  | .sneImm x nn => Sys2Proof.Machine.execSneImm x nn s
  | .seReg x y => Sys2Proof.Machine.execSeReg x y s
  | .ldImm x nn => Sys2Proof.Machine.execLdImm x nn s
  | .addImm x nn => Sys2Proof.Machine.execAddImm x nn s
  | .mov x y => Sys2Proof.Machine.execMov x y s
  | .or x y => Sys2Proof.Machine.execOr x y s
  | .and x y => Sys2Proof.Machine.execAnd x y s
  | .xor x y => Sys2Proof.Machine.execXor x y s
  | .addReg x y => Sys2Proof.Machine.execAddReg x y s
  | .sub x y => Sys2Proof.Machine.execSub x y s
  | .shr x y => Sys2Proof.Machine.execShr x y s
  | .subn x y => Sys2Proof.Machine.execSubn x y s
  | .shl x y => Sys2Proof.Machine.execShl x y s
  | .sneReg x y => Sys2Proof.Machine.execSneReg x y s
  | .ldIndex nnn => Sys2Proof.Machine.execLdIndex nnn s
  | .jpV0 nnn => Sys2Proof.Machine.execJpV0 nnn s
  | .rnd x nn => Sys2Proof.Machine.execRnd x nn s
  | .drw x y n => Sys2Proof.Machine.execDrw x y n s
  | .skp x => Sys2Proof.Machine.execSkp x s
  | .sknp x => Sys2Proof.Machine.execSknp x s
  | .ldDt x => Sys2Proof.Machine.execLdDt x s
  | .waitKey x => Sys2Proof.Machine.execWaitKey x s
  | .stDt x => Sys2Proof.Machine.execStDt x s
  | .stSt x => Sys2Proof.Machine.execStSt x s
  | .addIndex x => Sys2Proof.Machine.execAddIndex x s
  | .font x => Sys2Proof.Machine.execFont x s
  | .bcd x => Sys2Proof.Machine.execBcd x s
  | .stm x => Sys2Proof.Machine.execStm x s
  | .ldm x => Sys2Proof.Machine.execLdm x s
  | .nop op => Sys2Proof.Machine.execNop op s

end Sys2Proof.Machine
end

