-- ==== Sys2Proof/Machine/Tick.lean ====
section
/-! DEFINITION. The execution cycle (`50_execution_cycle.md`) and the host's moves (`10_state.md` section 12,
`70_reset_and_hazards.md`). -/

namespace Sys2Proof.Machine

/-! ## The three primitive transitions -/

/-- One timer down by 1, never below zero (R172). -/
def decay (b : Byte) : Byte := if b = 0 then 0 else b - 1

/-- `TimerDecay` (R172): each timer tests only itself. -/
def timerDecay (s : State) : State := (s.setDt (decay s.dt)).setSt (decay s.st)

/-- `KeyResolve(r, k)` (R173). -/
def keyResolve (r : Reg) (k : Key) (s : State) : State := (s.setV r (BitVec.ofNat 8 k.val)).setRun .running

/-- `MEM[PC] ++ MEM[PC+1]`, big-endian (R44). -/
def fetchWord (s : State) : Half := Memory.get s.mem s.pc.toNat ++ Memory.get s.mem (s.pc.toNat + 1)

/-- `Step` (R175): the fetch check (R174), the fetch, the advance of `PC`, then the instruction. -/
def instrStep (s : State) : Result :=
  if Config.lastSlot < s.pc.toNat then .next (enterFault .pcOutOfRange s.pc s.pc s)
  else exec (decode (fetchWord s)) (s.setPc (s.pc + 2))

/-! ## The tick -/

/-- What a tick does after the decay (R171, steps 2 and 3): at most one of resolving a wait and executing an instruction. -/
def afterDecay (t : TickIn) (s : State) : Result :=
  match s.run with
  | .awaitingKey r =>
    match t.keyEvent with
    | some k => .next (keyResolve r k s)
    | none => .next s
  | .running => if t.instrDue then instrStep s else .next s
  | .halted _ _ _ => .next s

/-- The decay of a tick, if it is due (R171, step 1), in every run state. -/
def decayIfDue (t : TickIn) (s : State) : State := if t.timerDue then timerDecay s else s

/-- The first tick ends the time in which a program can be loaded (R222). -/
def closeLoadPort (s : State) : State :=
  { s with loadPort := match s.loadPort with | .pending => .missed | p => p }

/-- A tick (R171). After a failed load there is no run (R224). -/
def tick (t : TickIn) (s : State) : Result :=
  match s.loadPort with
  | .outOfSpace => .refused .runAfterFailedLoad
  | _ => afterDecay t (decayIfDue t (closeLoadPort s))

/-- The tick that executes one instruction and does nothing else: `instr_due = 1`, `timer_due = 0`, no key event. -/
def instrTick : TickIn where
  timerDue := false
  instrDue := true
  keyEvent := none

/-! ## The host's other moves -/

/-- `press(k)` (R25). -/
def press (k : Key) (s : State) : State := s.setKeys (s.keys ||| BitVec.twoPow 16 k.val)

/-- `release(k)` (R25). -/
def release (k : Key) (s : State) : State := s.setKeys (s.keys &&& ~~~ (BitVec.twoPow 16 k.val))

/-- Reset (R220): every piece of state at its reset value. The inputs still to come are not the machine's state, and an
input already used is not used again (log 9). -/
def applyReset (s : State) : State :=
  { State.reset with inbox := s.inbox, moves := s.moves, randIn := s.randIn, draws := s.draws }

/-- `load_program(bytes)` (R224), once and before the first tick (R222). -/
def loadProgram (bytes : List Byte) (s : State) : Result :=
  match s.loadPort with
  | .pending =>
    if Config.romMax < bytes.length then .next { s with loadPort := .outOfSpace }
    else .next { s with mem := Memory.setBytes s.mem Config.origin bytes, loadPort := .loaded }
  | _ => .refused .lateLoad

/-- One move of the host. -/
def hostMove (m : HostMove) (s : State) : Result :=
  match m with
  | .reset => .next (applyReset s)
  | .load bytes => loadProgram bytes s
  | .press k => .next (press k s)
  | .release k => .next (release k s)
  | .tick t => tick t s

/-- The move the host makes next: the oldest one in the inbox, or, when none is waiting, the free value (R28, R178, log 2). -/
def nextMove (s : State) : HostMove :=
  match s.inbox with
  | m :: _ => m
  | [] => Config.hostMove s.moves

/-- Making a move uses it up. -/
def takeMove (s : State) : State := { s with inbox := s.inbox.tail, moves := s.moves + 1 }

/-- A state in which the next step fetches and runs the word `op`: the word stands where the fetch looks, the machine is
running, the next host move is a tick that is due for an instruction, and no failed load bars the run. -/
def placeWord (s : State) (op : Half) : State :=
  let pc0 : Half := if Config.lastSlot < s.pc.toNat then 0x0200 else s.pc
  { s with
    pc := pc0
    mem := Memory.setBytes s.mem pc0.toNat [hiByte op, loByte op]
    run := .running
    inbox := .tick instrTick :: s.inbox
    loadPort := match s.loadPort with | .outOfSpace => .missed | p => p }

end Sys2Proof.Machine
end

