-- ==== Sys2Proof/Machine/Step.lean ====
section
/-! DEFINITION. One step of the machine is one move of its host (R178). -/

namespace Sys2Proof.Machine

/-- One step: the host's next move. With an empty inbox it is a free value. -/
def step (s : State) : Host.Outcome State Fault Refusal := hostMove (nextMove s) (takeMove s)

/-- `s` with the word `w` placed so that the next step fetches and runs it. -/
def State.withFetchWord (s : State) (nbits w : Nat) : State := placeWord s (tableWord nbits w)

end Sys2Proof.Machine
end

