-- ==== Sys2Proof/Safety.lean ====
section
/-! DEFINITION. What counts as a safe, a waiting and a finished run, and the invariant of the machine. -/

namespace Sys2Proof.Machine

/-- "`RUN` is never `Halted`" is the safety premise of R198. -/
def State.safe (s : State) : Bool :=
  match s.run with
  | .running => true
  | .awaitingKey _ => true
  | .halted _ _ _ => false

/-- Waiting for a key event (R205): not over (R179 (b)). -/
def State.waiting (s : State) : Bool :=
  match s.run with
  | .running => false
  | .awaitingKey _ => true
  | .halted _ _ _ => false

/-- THE RUN IS OVER (R179 (c)): running, and the instruction at `PC` is a jump to itself. -/
def State.finished (s : State) : Bool :=
  s.run == .running && decide (s.pc.toNat ≤ Config.lastSlot) && fetchWord s == (0x1000 ||| s.pc)

/-- The invariant: memory is in canonical form (so every listed address lies in the 4096 bytes of R13), `PC` never exceeds
0x10FE (R15), and every stack entry is at most 0x1000, the largest address CALL saves (R15: RET restores a saved value). -/
def State.Inv (s : State) : Prop :=
  Memory.wf s.mem = true ∧ s.pc.toNat ≤ 0x10FE ∧ ∀ j : Fin 16, s.stack[j].toNat ≤ 0x1000

end Sys2Proof.Machine
end

