-- ==== Sys2Proof/Certificates/Slice0/Obligations.lean ====
section
/-! DEFINITION. The statements for the provers, and the words they are written in: the pieces of the state, what it is for
two states to agree but for some of them, the opcode table of R66 as data, and the fault table of R190 as a function. -/

namespace Sys2Proof.Spec

open Sys2Proof.Machine

/-! ## Frames -/

/-- The pieces of the state (`10_state.md`), and the model's own inputs. -/
inductive Piece where
  | v | i | pc | stack | sp | dt | st | run | fb | keys | mem | loadPort | inbox | rand
  deriving DecidableEq, Repr

/-- Two states agree on one piece, each read through the model's own read of it: a register, a stack entry, a pixel, a
byte of memory. -/
def Same : Piece → State → State → Prop
  | .v, s, t => ∀ r : Reg, t.reg r = s.reg r
  | .i, s, t => t.i = s.i
  | .pc, s, t => t.pc = s.pc
  | .stack, s, t => ∀ j : Fin 16, t.stack[j] = s.stack[j]
  | .sp, s, t => t.sp = s.sp
  | .dt, s, t => t.dt = s.dt
  | .st, s, t => t.st = s.st
  | .run, s, t => t.run = s.run
  | .fb, s, t => ∀ (x : Fin 64) (y : Fin 32), t.pixel x y = s.pixel x y
  | .keys, s, t => t.keys = s.keys
  | .mem, s, t => ∀ a : Nat, Memory.get t.mem a = Memory.get s.mem a
  | .loadPort, s, t => t.loadPort = s.loadPort
  | .inbox, s, t => t.inbox = s.inbox ∧ t.moves = s.moves
  | .rand, s, t => t.randIn = s.randIn ∧ t.draws = s.draws

/-- `t` is `s` but for the pieces named. -/
def SameBut (ps : List Piece) (s t : State) : Prop := ∀ p : Piece, p ∉ ps → Same p s t

/-! ## Shapes of results -/

/-- The instruction answers a next state, and that state meets `post`. -/
def Runs (i : Instr) (s : State) (post : State → Prop) : Prop := ∃ t, exec i s = .next t ∧ post t

/-- The word `w` is the encoding of `i`. -/
def Encodes (w : Nat) (i : Instr) : Prop := w < 0x10000 ∧ decode (BitVec.ofNat 16 w) = i

/-- `V[x]` becomes the number `n`; every other register and everything else is unchanged. -/
def SetsReg (x : Reg) (n : Nat) (s t : State) : Prop :=
  (t.reg x).toNat = n ∧ (∀ r : Reg, r ≠ x → t.reg r = s.reg r) ∧ SameBut [.v] s t

/-- `VF` becomes the flag, exactly 1 or 0, also when `x = 0xF` (R100); `V[x]` becomes the number `n` otherwise; every other
register and everything else is unchanged. -/
def SetsRegFlag (x : Reg) (n : Nat) (flag : Prop) (s t : State) : Prop :=
  ((flag → t.reg 15 = 1) ∧ (¬ flag → t.reg 15 = 0)) ∧ (x ≠ 15 → (t.reg x).toNat = n) ∧
    (∀ r : Reg, r ≠ x → r ≠ 15 → t.reg r = s.reg r) ∧ SameBut [.v] s t

/-- A fault is entered (R196): `RUN` records cause, address and info, `PC` is that address, nothing else changes. -/
def EntersFault (c : Cause) (pc0 : Half) (info : Nat) (s t : State) : Prop :=
  (∃ a : Half, a.toNat = info ∧ t.run = .halted c pc0 a) ∧ t.pc = pc0 ∧ SameBut [.run, .pc] s t

/-- The timers after a tick: each down by 1 but never below zero if `due`, else unchanged (R172). -/
def Decayed (due : Bool) (s t : State) : Prop :=
  t.dt.toNat = s.dt.toNat - due.toNat ∧ t.st.toNat = s.st.toNat - due.toNat

/-- The host's move is used up: it is out of the inbox, and counted. -/
def MoveTaken (s t : State) : Prop := t.inbox = s.inbox.tail ∧ t.moves = s.moves + 1

/-- What every tick does beside its own work: the move is used up, and a load is no longer possible. -/
def TickTaken (s t : State) : Prop :=
  MoveTaken s t ∧ t.loadPort = if s.loadPort = .pending then .missed else s.loadPort

/-- The host's next move is the tick `t`, and no failed load bars the run (R224). -/
def NextTick (t : TickIn) (s : State) : Prop := nextMove s = .tick t ∧ s.loadPort ≠ .outOfSpace

/-! ## The tables of the spec -/

/-- The mnemonics of R66 and R160. -/
def mnemonic : Instr → String
  | .cls _ => "CLS"
  | .ret _ => "RET"
  | .jp _ => "JP"
  | .call _ => "CALL"
  | .seImm _ _ => "SE_I"
  | .sneImm _ _ => "SNE_I"
  | .seReg _ _ => "SE_R"
  | .ldImm _ _ => "LD_I"
  | .addImm _ _ => "ADD_I"
  | .mov _ _ => "MOV"
  | .or _ _ => "OR"
  | .and _ _ => "AND"
  | .xor _ _ => "XOR"
  | .addReg _ _ => "ADD_R"
  | .sub _ _ => "SUB"
  | .shr _ _ => "SHR"
  | .subn _ _ => "SUBN"
  | .shl _ _ => "SHL"
  | .sneReg _ _ => "SNE_R"
  | .ldIndex _ => "LDI"
  | .jpV0 _ => "JP_V0"
  | .rnd _ _ => "RND"
  | .drw _ _ _ => "DRW"
  | .skp _ => "SKP"
  | .sknp _ => "SKNP"
  | .ldDt _ => "LD_DT"
  | .waitKey _ => "WAITKEY"
  | .stDt _ => "ST_DT"
  | .stSt _ => "ST_ST"
  | .addIndex _ => "ADDI"
  | .font _ => "FONT"
  | .bcd _ => "BCD"
  | .stm _ => "STM"
  | .ldm _ => "LDM"
  | .nop _ => "NOP"

/-- One row of the opcode map of R66. -/
structure Row where
  mask : Half
  value : Half
  name : String
  deriving DecidableEq, Repr

/-- The 34 rows of R66: mask, match, mnemonic. -/
def opcodeMap : List Row :=
  [⟨0xF00F, 0x0000, "CLS"⟩, ⟨0xF00F, 0x000E, "RET"⟩, ⟨0xF000, 0x1000, "JP"⟩, ⟨0xF000, 0x2000, "CALL"⟩] ++
  [⟨0xF000, 0x3000, "SE_I"⟩, ⟨0xF000, 0x4000, "SNE_I"⟩, ⟨0xF00F, 0x5000, "SE_R"⟩, ⟨0xF000, 0x6000, "LD_I"⟩] ++
  [⟨0xF000, 0x7000, "ADD_I"⟩, ⟨0xF00F, 0x8000, "MOV"⟩, ⟨0xF00F, 0x8001, "OR"⟩, ⟨0xF00F, 0x8002, "AND"⟩] ++
  [⟨0xF00F, 0x8003, "XOR"⟩, ⟨0xF00F, 0x8004, "ADD_R"⟩, ⟨0xF00F, 0x8005, "SUB"⟩, ⟨0xF00F, 0x8006, "SHR"⟩] ++
  [⟨0xF00F, 0x8007, "SUBN"⟩, ⟨0xF00F, 0x800E, "SHL"⟩, ⟨0xF00F, 0x9000, "SNE_R"⟩, ⟨0xF000, 0xA000, "LDI"⟩] ++
  [⟨0xF000, 0xB000, "JP_V0"⟩, ⟨0xF000, 0xC000, "RND"⟩, ⟨0xF000, 0xD000, "DRW"⟩, ⟨0xF0FF, 0xE09E, "SKP"⟩] ++
  [⟨0xF0FF, 0xE0A1, "SKNP"⟩, ⟨0xF0FF, 0xF007, "LD_DT"⟩, ⟨0xF0FF, 0xF00A, "WAITKEY"⟩, ⟨0xF0FF, 0xF015, "ST_DT"⟩] ++
  [⟨0xF0FF, 0xF018, "ST_ST"⟩, ⟨0xF0FF, 0xF01E, "ADDI"⟩, ⟨0xF0FF, 0xF029, "FONT"⟩, ⟨0xF0FF, 0xF033, "BCD"⟩] ++
  [⟨0xF0FF, 0xF055, "STM"⟩, ⟨0xF0FF, 0xF065, "LDM"⟩]

/-- Whether a data access of `len` bytes at `I` leaves the address space, and the fault it raises then (R190, R194). -/
def rangeFault (len : Nat) (s : State) : Option (Cause × Nat) :=
  if 0 < len ∧ 0x1000 < s.i.toNat + len then some (.memOutOfBounds, max s.i.toNat 0x1000) else none

/-- The fault an instruction raises in a state, with the `info` it records (R190): at most one (R197). -/
def faultOf : Instr → State → Option (Cause × Nat)
  | .call _, s => if s.sp.val = 16 then some (.stackOverflow, 16) else none
  | .ret _, s => if s.sp.val = 0 then some (.stackUnderflow, 0) else none
  | .drw _ _ n, s => rangeFault n.val s
  | .bcd _, s => rangeFault 3 s
  | .stm x, s => rangeFault (x.val + 1) s
  | .ldm x, s => rangeFault (x.val + 1) s
  | _, _ => none

/-- The pieces each instruction may write (R11, R12, R16, R17, R22, R24, R25, R30, R40), a fault's `RUN` and `PC` among them. -/
def mayWrite : Instr → List Piece
  | .cls _ => [.fb]
  | .ret _ => [.pc, .sp, .run]
  | .jp _ => [.pc]
  | .call _ => [.pc, .sp, .stack, .run]
  | .seImm _ _ => [.pc]
  | .sneImm _ _ => [.pc]
  | .seReg _ _ => [.pc]
  | .ldImm _ _ => [.v]
  | .addImm _ _ => [.v]
  | .mov _ _ => [.v]
  | .or _ _ => [.v]
  | .and _ _ => [.v]
  | .xor _ _ => [.v]
  | .addReg _ _ => [.v]
  | .sub _ _ => [.v]
  | .shr _ _ => [.v]
  | .subn _ _ => [.v]
  | .shl _ _ => [.v]
  | .sneReg _ _ => [.pc]
  | .ldIndex _ => [.i]
  | .jpV0 _ => [.pc]
  | .rnd _ _ => [.v, .rand]
  | .drw _ _ _ => [.fb, .v, .pc, .run]
  | .skp _ => [.pc]
  | .sknp _ => [.pc]
  | .ldDt _ => [.v]
  | .waitKey _ => [.run]
  | .stDt _ => [.dt]
  | .stSt _ => [.st]
  | .addIndex _ => [.i]
  | .font _ => [.i]
  | .bcd _ => [.mem, .pc, .run]
  | .stm _ => [.mem, .pc, .run]
  | .ldm _ => [.v, .pc, .run]
  | .nop _ => []

/-- The instructions that write `VF` as a side effect (R11): exactly these six. -/
def writesFlag : Instr → Bool
  | .addReg _ _ => true
  | .sub _ _ => true
  | .shr _ _ => true
  | .subn _ _ => true
  | .shl _ _ => true
  | .drw _ _ _ => true
  | _ => false

/-- The registers an instruction writes as its ordinary destination (R11). -/
def isDestination (r : Reg) : Instr → Bool
  | .ldImm x _ => r == x
  | .addImm x _ => r == x
  | .mov x _ => r == x
  | .or x _ => r == x
  | .and x _ => r == x
  | .xor x _ => r == x
  | .addReg x _ => r == x
  | .sub x _ => r == x
  | .shr x _ => r == x
  | .subn x _ => r == x
  | .shl x _ => r == x
  | .rnd x _ => r == x
  | .ldDt x => r == x
  | .ldm x => decide (r.val ≤ x.val)
  | _ => false

/-- The pieces an instruction cannot observe: `ST` is read by none (R17), `KEYS` only by SKP and SKNP, `rand` only by RND
(R177), the host's moves to come and the load port by none. -/
def cannotSee : Instr → List Piece
  | .skp _ => [.st, .rand, .loadPort, .inbox]
  | .sknp _ => [.st, .rand, .loadPort, .inbox]
  | .rnd _ _ => [.st, .keys, .loadPort, .inbox]
  | _ => [.st, .keys, .rand, .loadPort, .inbox]

/-- The sprite's bit at the cell `(cx, cy)` for a DRW of `n` rows in state `s` (R123, R124): the origin is reduced into the
grid, the sprite extends 8 columns right and `n` rows down from it without wrapping, column 0 is bit 7. -/
def spriteAt (s : State) (x y : Reg) (n cx cy : Nat) : Bool :=
  decide ((s.reg x).toNat % 64 ≤ cx ∧ cx < (s.reg x).toNat % 64 + 8 ∧
      (s.reg y).toNat % 32 ≤ cy ∧ cy < (s.reg y).toNat % 32 + n) &&
    (Memory.get s.mem (s.i.toNat + (cy - (s.reg y).toNat % 32))).getLsbD (7 - (cx - (s.reg x).toNat % 64))

end Sys2Proof.Spec

open Sys2Proof Sys2Proof.Machine Sys2Proof.Spec

/-! ## Encoding -/

/-- Words written out from the spec's encodings decode to the instructions they stand for; the zero word is CLS (R161). -/
def Obligations.SpecWordsDecode : Prop :=
  decode 0x00E0 = .cls 0x0E ∧ decode 0x0000 = .cls 0x00 ∧ decode 0x00EE = .ret 0x0E ∧ decode 0x1234 = .jp 0x234 ∧
  decode 0x2300 = .call 0x300 ∧ decode 0x332A = .seImm 3 0x2A ∧ decode 0x5120 = .seReg 1 2 ∧
  decode 0x5121 = .nop 0x5121 ∧ decode 0x812E = .shl 1 2 ∧ decode 0xA2F0 = .ldIndex 0x2F0 ∧
  decode 0xD015 = .drw 0 1 5 ∧ decode 0xE29E = .skp 2 ∧ decode 0xF30A = .waitKey 3 ∧ decode 0xF265 = .ldm 2 ∧
  decode 0xF0FF = .nop 0xF0FF

/-- Decoding the two big-endian bytes of any well-formed instruction, whatever bytes follow, gives the instruction with
every operand, and leaves the bytes that follow. (That the bits which CLS and RET do not examine are among the operands is
the model's choice, log 16.) -/
def Obligations.DecodeOfEncodedBytes : Prop :=
  ∀ (i : Instr) (rest : List Byte), i.wf = true → decodeBytes (encodeBytes i ++ rest) = .ok (i, rest)

/-- Every one of the 65536 words decodes to a well-formed instruction whose encoding is that word: the decoder is total and
drops no bit. The second half rests on the model's choice (log 16) that CLS and RET keep the bits they do not examine and
NOP its whole word: the assembler of R70 emits only 00E0 and 00EE for CLS and RET. -/
def Obligations.EncodeOfDecodedWord : Prop :=
  ∀ w : Half, (decode w).wf = true ∧ encode (decode w) = w

/-- The decoder agrees with the opcode map of R66: a word decodes to a row's mnemonic exactly when it matches the row under
the row's mask, and to NOP exactly when it matches none. -/
def Obligations.DecoderAgreesWithOpcodeMap : Prop :=
  ∀ w : Half, (∀ r ∈ opcodeMap, mnemonic (decode w) = r.name ↔ w &&& r.mask = r.value) ∧
    (mnemonic (decode w) = "NOP" ↔ ∀ r ∈ opcodeMap, w &&& r.mask ≠ r.value)

/-! ## The step and the tick -/

/-- When the machine is running, the host's next tick is due for an instruction and the two bytes at `PC` lie in memory and
decode to `i`, the step is `i` at the state whose timers have decayed if due, whose `PC` is past the instruction, and
which is otherwise unchanged. -/
def Obligations.StepRunsDecodedInstruction : Prop :=
  ∀ (s : State) (t : TickIn) (i : Instr), NextTick t s → t.instrDue = true → s.run = .running → s.pc.toNat ≤ 0x0FFE →
    decodeBytes [Memory.get s.mem s.pc.toNat, Memory.get s.mem (s.pc.toNat + 1)] = .ok (i, []) →
    ∃ u, step s = exec i u ∧ u.pc.toNat = s.pc.toNat + 2 ∧ Decayed t.timerDue s u ∧ TickTaken s u ∧
      SameBut [.pc, .dt, .st, .inbox, .loadPort] s u

/-- R174: a step that would fetch from above 0x0FFE raises `PcOutOfRange(PC)`: `PC` keeps its value and nothing else of the
machine changes but the timers of the same tick. -/
def Obligations.FetchPastEndHalts : Prop :=
  ∀ (s : State) (t : TickIn), NextTick t s → t.instrDue = true → s.run = .running → 0x0FFE < s.pc.toNat →
    ∃ u, step s = .next u ∧ u.run = .halted .pcOutOfRange s.pc s.pc ∧ Decayed t.timerDue s u ∧ TickTaken s u ∧
      SameBut [.run, .dt, .st, .inbox, .loadPort] s u

/-- R173: a tick on a waiting machine that carries a key event writes the key into the latched register and clears the
latch, and executes no instruction whatever `instr_due` is; without an event nothing changes but the timers. -/
def Obligations.WaitingTickResolvesOnKeyEvent : Prop :=
  ∀ (s : State) (t : TickIn) (r : Reg), NextTick t s → s.run = .awaitingKey r →
    ∃ u, step s = .next u ∧ Decayed t.timerDue s u ∧ TickTaken s u ∧
      (∀ k, t.keyEvent = some k → (u.reg r).toNat = k.val ∧ (∀ q : Reg, q ≠ r → u.reg q = s.reg q) ∧ u.run = .running ∧
        SameBut [.v, .run, .dt, .st, .inbox, .loadPort] s u) ∧
      (t.keyEvent = none → SameBut [.dt, .st, .inbox, .loadPort] s u)

/-- R171, R180: a tick that executes no instruction on a running machine, and every tick on a halted one, changes nothing
but the timers; a key event is dropped. -/
def Obligations.IdleTickOnlyDecays : Prop :=
  ∀ (s : State) (t : TickIn), NextTick t s →
    (s.run = .running ∧ t.instrDue = false) ∨ (∃ c p a, s.run = .halted c p a) →
    ∃ u, step s = .next u ∧ Decayed t.timerDue s u ∧ TickTaken s u ∧ SameBut [.dt, .st, .inbox, .loadPort] s u

/-- R172: after `n` decays each timer stands at its value less `n`, never below zero, and nothing else has changed. -/
def Obligations.RepeatedDecayStopsAtZero : Prop :=
  ∀ (n : Nat) (s : State), (timerDecay^[n] s).dt.toNat = s.dt.toNat - n ∧ (timerDecay^[n] s).st.toNat = s.st.toNat - n ∧
    SameBut [.dt, .st] s (timerDecay^[n] s)

/-- R198: whatever the host does, a step leaves `Halted` only if it is a reset, and keeps the first halt's record. -/
def Obligations.OnlyResetLeavesHalted : Prop :=
  ∀ (s u : State) (c : Cause) (p a : Half), s.run = .halted c p a → step s = .next u →
    nextMove s = .reset ∨ (u.run = .halted c p a ∧ SameBut [.dt, .st, .keys, .mem, .loadPort, .inbox] s u)

/-- R196, R197: whichever instruction faults, the halted state has every register, stack entry, pixel and byte of memory of
the state before the step, `PC` included, and records that `PC`; only the timers' decay of the same tick is kept. -/
def Obligations.FaultsArePrecise : Prop :=
  ∀ (s u : State) (t : TickIn) (c : Cause) (p a : Half), NextTick t s → s.run = .running → step s = .next u →
    u.run = .halted c p a →
    t.instrDue = true ∧ p = s.pc ∧ Decayed t.timerDue s u ∧ TickTaken s u ∧ SameBut [.run, .dt, .st, .inbox, .loadPort] s u

/-- R190: every instruction answers a next state in every state; it enters exactly the fault of the table when the table's
condition holds, and no instruction halts otherwise. -/
def Obligations.FaultCausesAreExact : Prop :=
  ∀ (i : Instr) (s : State), Runs i s fun t =>
    (∀ c n, faultOf i s = some (c, n) → EntersFault c (s.pc - 2) n s t) ∧
    (faultOf i s = none → ∀ c p a, t.run = .halted c p a → s.run = .halted c p a)

/-- The only steps the model refuses are a load that comes late or twice (R222) and a tick after a failed load (R224): the
model's reading of "not moves of the machine" and of "no run" (log 7). -/
def Obligations.OnlyLoadMisuseIsRefused : Prop :=
  ∀ (s : State) (r : Refusal), step s = .refused r ↔
    (r = .lateLoad ∧ (∃ bytes, nextMove s = .load bytes) ∧ s.loadPort ≠ .pending) ∨
    (r = .runAfterFailedLoad ∧ (∃ t, nextMove s = .tick t) ∧ s.loadPort = .outOfSpace)

/-! ## Rules of the whole machine -/

/-- Every instruction leaves every piece of the state unchanged that the spec does not let it write. -/
def Obligations.EveryInstructionKeepsItsFrame : Prop :=
  ∀ (i : Instr) (s t : State), exec i s = .next t → SameBut (mayWrite i) s t

/-- R11: `VF` is written as a side effect by exactly six instructions, each time with 0 or 1; every other general register,
and `VF` under every other instruction, changes only as an ordinary destination. -/
def Obligations.FlagRegisterRules : Prop :=
  ∀ (i : Instr) (s t : State), exec i s = .next t →
    (∀ r : Reg, isDestination r i = false → (r ≠ 15 ∨ writesFlag i = false) → t.reg r = s.reg r) ∧
    (writesFlag i = true → faultOf i s = none → t.reg 15 = 0 ∨ t.reg 15 = 1)

/-- R17, and what R177 derives: an instruction's effect does not depend on what it cannot see: `ST` never, `KEYS` only in SKP and SKNP, the
random bytes only in RND. -/
def Obligations.InstructionsSeeOnlyTheirInputs : Prop :=
  ∀ (i : Instr) (s s' t t' : State), SameBut (cannotSee i) s s' → exec i s = .next t → exec i s' = .next t' →
    SameBut (cannotSee i) t t'

/-- The invariant holds at reset (the reset values of `PC` and `STACK` are the spec's decisions D2 and D3, log 4). -/
def Obligations.ResetHasInvariant : Prop := State.reset.Inv

/-- Every step keeps the invariant: memory stays in canonical form within the 4096 bytes, `PC` never exceeds 0x10FE, and no
stack entry exceeds 0x1000: the bound that R15 derives. -/
def Obligations.StepKeepsInvariant : Prop :=
  ∀ s t : State, s.Inv → step s = .next t → t.Inv

/-- A read after a write of memory gives the byte written at its address and, at every other address, what stood there
(R50 (c)); a write inside the address space keeps the canonical form. -/
def Obligations.MemoryReadAfterWrite : Prop :=
  ∀ (m : List Host.Cell) (a c : Nat) (b : Byte),
    Memory.get (Memory.set m a b) c = (if c = a then b else Memory.get m c) ∧
    (Memory.wf m = true → a < 4096 → Memory.wf (Memory.set m a b) = true)

/-- Memories in canonical form that read alike at every address are equal data. -/
def Obligations.CanonicalMemoriesAreEqual : Prop :=
  ∀ m m' : List Host.Cell, Memory.wf m = true → Memory.wf m' = true →
    (∀ a : Nat, Memory.get m a = Memory.get m' a) → m = m'

/-- What R53 derives: an STM that overwrites the instruction after it is seen by the very next fetch, with nothing to do in
between, whatever else the two ticks bring. -/
def Obligations.StoredInstructionRunsNext : Prop :=
  ∀ (s : State) (x : Reg) (t₁ : TickIn), NextTick t₁ s → t₁.instrDue = true → s.run = .running → s.pc.toNat ≤ 0x0FFC →
    decode (Memory.get s.mem s.pc.toNat ++ Memory.get s.mem (s.pc.toNat + 1)) = .stm x → 1 ≤ x.val →
    s.i.toNat = s.pc.toNat + 2 → s.i.toNat + x.val ≤ 0xFFF →
    ∃ t, step s = .next t ∧ TickTaken s t ∧ ∀ t₂ : TickIn, NextTick t₂ t → t₂.instrDue = true →
      ∃ u, step t = exec (decode (s.reg 0 ++ s.reg 1)) u ∧ u.pc.toNat = s.pc.toNat + 4 ∧ Decayed t₂.timerDue t u ∧
        TickTaken t u ∧ SameBut [.pc, .dt, .st, .inbox, .loadPort] t u

/-- R179 (c): once the run is finished every tick leaves every piece of state but the timers unchanged, and the run stays
finished. -/
def Obligations.FinishedRunStaysFinished : Prop :=
  ∀ (s : State) (t : TickIn), s.finished = true → NextTick t s →
    ∃ u, step s = .next u ∧ u.finished = true ∧ Decayed t.timerDue s u ∧ SameBut [.dt, .st, .inbox, .loadPort] s u

/-! ## Control transfer -/

/-- R80: JP. -/
def Obligations.JpSetsPc : Prop :=
  ∀ (nnn : BitVec 12) (s : State), Encodes (0x1000 + nnn.toNat) (.jp nnn) ∧
    Runs (.jp nnn) s fun t => t.pc.toNat = nnn.toNat ∧ SameBut [.pc] s t

/-- R83: JP_V0. The sum is not reduced. -/
def Obligations.JpV0AddsV0 : Prop :=
  ∀ (nnn : BitVec 12) (s : State), Encodes (0xB000 + nnn.toNat) (.jpV0 nnn) ∧
    Runs (.jpV0 nnn) s fun t => t.pc.toNat = nnn.toNat + (s.reg 0).toNat ∧ SameBut [.pc] s t

/-- R82: CALL. `PC` on entry is the address after the instruction. -/
def Obligations.CallPushesReturnAddress : Prop :=
  ∀ (nnn : BitVec 12) (s : State), Encodes (0x2000 + nnn.toNat) (.call nnn) ∧ Runs (.call nnn) s fun t =>
    (s.sp.val < 16 → (∀ j : Fin 16, t.stack[j] = if j.val = s.sp.val then s.pc else s.stack[j]) ∧
      t.sp.val = s.sp.val + 1 ∧ t.pc.toNat = nnn.toNat ∧ SameBut [.pc, .sp, .stack] s t) ∧
    (s.sp.val = 16 → EntersFault .stackOverflow (s.pc - 2) 16 s t)

/-- R81: RET. The popped entry is not cleared. -/
def Obligations.RetPopsReturnAddress : Prop :=
  ∀ (m : Byte) (s : State), Encodes (0x000E + 0x10 * m.toNat) (.ret m) ∧ Runs (.ret m) s fun t =>
    (∀ j : Fin 16, s.sp.val = j.val + 1 → t.sp.val = j.val ∧ t.pc = s.stack[j] ∧ SameBut [.pc, .sp] s t) ∧
    (s.sp.val = 0 → EntersFault .stackUnderflow (s.pc - 2) 0 s t)

/-- The document's round trip (S5): CALL then RET, wherever the subroutine's RET stands, comes back to the instruction after
the CALL with everything else as before the CALL, the stack pointer included, but for the one stack entry that CALL wrote
and RET leaves stale. -/
def Obligations.CallThenRetComesBack : Prop :=
  ∀ (nnn : BitVec 12) (m : Byte) (here : Half) (s : State), s.sp.val < 16 →
    Runs (.call nnn) s fun t => Runs (.ret m) (t.setPc here) fun u => u.pc = s.pc ∧ SameBut [.stack] s u ∧
      ∀ j : Fin 16, u.stack[j] = if j.val = s.sp.val then s.pc else s.stack[j]

/-! ## Skips -/

/-- R91, R92: SE_I and SNE_I. -/
def Obligations.SkipsOnImmediate : Prop :=
  ∀ (x : Reg) (nn : Byte) (s : State),
    Encodes (0x3000 + 0x100 * x.val + nn.toNat) (.seImm x nn) ∧ Encodes (0x4000 + 0x100 * x.val + nn.toNat) (.sneImm x nn) ∧
    (Runs (.seImm x nn) s fun t =>
      ((s.reg x).toNat = nn.toNat → t.pc = s.pc + 2) ∧ ((s.reg x).toNat ≠ nn.toNat → t.pc = s.pc) ∧ SameBut [.pc] s t) ∧
    (Runs (.sneImm x nn) s fun t =>
      ((s.reg x).toNat ≠ nn.toNat → t.pc = s.pc + 2) ∧ ((s.reg x).toNat = nn.toNat → t.pc = s.pc) ∧ SameBut [.pc] s t)

/-- R93, R94: SE_R and SNE_R; with a low nibble other than 0 the word is neither but a NOP. -/
def Obligations.SkipsOnRegisters : Prop :=
  ∀ (x y : Reg) (s : State),
    Encodes (0x5000 + 0x100 * x.val + 0x10 * y.val) (.seReg x y) ∧
    Encodes (0x9000 + 0x100 * x.val + 0x10 * y.val) (.sneReg x y) ∧
    (Runs (.seReg x y) s fun t => ((s.reg x).toNat = (s.reg y).toNat → t.pc = s.pc + 2) ∧
      ((s.reg x).toNat ≠ (s.reg y).toNat → t.pc = s.pc) ∧ SameBut [.pc] s t) ∧
    (Runs (.sneReg x y) s fun t => ((s.reg x).toNat ≠ (s.reg y).toNat → t.pc = s.pc + 2) ∧
      ((s.reg x).toNat = (s.reg y).toNat → t.pc = s.pc) ∧ SameBut [.pc] s t) ∧
    (∀ n : Fin 16, n ≠ 0 →
      (∀ w : Half, w.toNat = 0x5000 + 0x100 * x.val + 0x10 * y.val + n.val → decode w = .nop w) ∧
      (∀ w : Half, w.toNat = 0x9000 + 0x100 * x.val + 0x10 * y.val + n.val → decode w = .nop w))

/-! ## Loads and arithmetic -/

/-- R102, R103: LD_I and ADD_I; no flag. -/
def Obligations.ImmediateLoadAndAdd : Prop :=
  ∀ (x : Reg) (nn : Byte) (s : State),
    Encodes (0x6000 + 0x100 * x.val + nn.toNat) (.ldImm x nn) ∧ Encodes (0x7000 + 0x100 * x.val + nn.toNat) (.addImm x nn) ∧
    Runs (.ldImm x nn) s (SetsReg x nn.toNat s) ∧
    Runs (.addImm x nn) s (SetsReg x (((s.reg x).toNat + nn.toNat) % 256) s)

/-- R104 to R107: MOV, OR, AND, XOR, bit by bit; no flag. -/
def Obligations.CopyAndLogic : Prop :=
  ∀ (x y : Reg) (s : State),
    Encodes (0x8000 + 0x100 * x.val + 0x10 * y.val) (.mov x y) ∧ Encodes (0x8001 + 0x100 * x.val + 0x10 * y.val) (.or x y) ∧
    Encodes (0x8002 + 0x100 * x.val + 0x10 * y.val) (.and x y) ∧ Encodes (0x8003 + 0x100 * x.val + 0x10 * y.val) (.xor x y) ∧
    Runs (.mov x y) s (SetsReg x (s.reg y).toNat s) ∧
    Runs (.or x y) s (SetsReg x ((s.reg x).toNat ||| (s.reg y).toNat) s) ∧
    Runs (.and x y) s (SetsReg x ((s.reg x).toNat &&& (s.reg y).toNat) s) ∧
    Runs (.xor x y) s (SetsReg x ((s.reg x).toNat ^^^ (s.reg y).toNat) s)

/-- R108: ADD_R, the carry in `VF`. -/
def Obligations.AddRegSetsCarry : Prop :=
  ∀ (x y : Reg) (s : State), Encodes (0x8004 + 0x100 * x.val + 0x10 * y.val) (.addReg x y) ∧
    Runs (.addReg x y) s (SetsRegFlag x (((s.reg x).toNat + (s.reg y).toNat) % 256)
      (255 < (s.reg x).toNat + (s.reg y).toNat) s)

/-- R109, R111: SUB and SUBN, the strict comparison in `VF`. -/
def Obligations.SubtractionsSetStrictFlag : Prop :=
  ∀ (x y : Reg) (s : State),
    Encodes (0x8005 + 0x100 * x.val + 0x10 * y.val) (.sub x y) ∧ Encodes (0x8007 + 0x100 * x.val + 0x10 * y.val) (.subn x y) ∧
    Runs (.sub x y) s (SetsRegFlag x (((s.reg x).toNat + 256 - (s.reg y).toNat) % 256)
      ((s.reg y).toNat < (s.reg x).toNat) s) ∧
    Runs (.subn x y) s (SetsRegFlag x (((s.reg y).toNat + 256 - (s.reg x).toNat) % 256)
      ((s.reg x).toNat < (s.reg y).toNat) s)

/-- R110, R112: SHR and SHL shift `V[x]` by one and put the bit shifted out into `VF`. That it is `V[x]` and not `V[y]` is
the spec's own choice (D13, log 10). -/
def Obligations.ShiftsSetBitShiftedOut : Prop :=
  ∀ (x y : Reg) (s : State),
    Encodes (0x8006 + 0x100 * x.val + 0x10 * y.val) (.shr x y) ∧ Encodes (0x800E + 0x100 * x.val + 0x10 * y.val) (.shl x y) ∧
    Runs (.shr x y) s (SetsRegFlag x ((s.reg x).toNat / 2) ((s.reg x).toNat % 2 = 1) s) ∧
    Runs (.shl x y) s (SetsRegFlag x ((s.reg x).toNat * 2 % 256) (128 ≤ (s.reg x).toNat) s)

/-- R113, R114, R125: LDI, ADDI (modulo 65536) and FONT (the whole byte times 5); no flag. -/
def Obligations.IndexRegisterWrites : Prop :=
  ∀ (x : Reg) (nnn : BitVec 12) (s : State),
    Encodes (0xA000 + nnn.toNat) (.ldIndex nnn) ∧ Encodes (0xF01E + 0x100 * x.val) (.addIndex x) ∧
    Encodes (0xF029 + 0x100 * x.val) (.font x) ∧
    (Runs (.ldIndex nnn) s fun t => t.i.toNat = nnn.toNat ∧ SameBut [.i] s t) ∧
    (Runs (.addIndex x) s fun t => t.i.toNat = (s.i.toNat + (s.reg x).toNat) % 65536 ∧ SameBut [.i] s t) ∧
    (Runs (.font x) s fun t => t.i.toNat = (s.reg x).toNat * 5 ∧ SameBut [.i] s t)

/-- R115: RND. Where the byte comes from is the model's choice (log 3): the next of the state's list or, when that is used
up, the free value `Config.rand`, of which nothing is known: the statement holds whatever it is. Each draw uses its byte
up. -/
def Obligations.RndMasksADrawnByte : Prop :=
  ∀ (x : Reg) (nn : Byte) (s : State), Encodes (0xC000 + 0x100 * x.val + nn.toNat) (.rnd x nn) ∧ Runs (.rnd x nn) s fun t =>
    (∀ b bs, s.randIn = b :: bs → t.reg x = b &&& nn ∧ t.randIn = bs) ∧
    (s.randIn = [] → t.reg x = Config.rand s.draws &&& nn ∧ t.randIn = []) ∧ t.draws = s.draws + 1 ∧
    t.reg x &&& ~~~ nn = 0 ∧ (∀ r : Reg, r ≠ x → t.reg r = s.reg r) ∧ SameBut [.v, .rand] s t

/-! ## Display -/

/-- R120, R121: CLS. -/
def Obligations.ClsClearsEveryPixel : Prop :=
  ∀ (m : Byte) (s : State), Encodes (0x10 * m.toNat) (.cls m) ∧
    Runs (.cls m) s fun t => (∀ x y, t.pixel x y = false) ∧ SameBut [.fb] s t

/-- R122: `xor_pixel` on any coordinates: the wrapped cell becomes old XOR value, no other cell changes, and the answer is
old AND value. -/
def Obligations.XorPixelTogglesOneCell : Prop :=
  ∀ (f : Vector (BitVec 64) 32) (x y : Nat) (value : Bool) (cx : Fin 64) (cy : Fin 32),
    (cx.val = x % 64 ∧ cy.val = y % 32 → cell (xorPixel f x y value).1 cx.val cy.val = (cell f cx.val cy.val ^^ value) ∧
      (xorPixel f x y value).2 = (cell f cx.val cy.val && value)) ∧
    (¬ (cx.val = x % 64 ∧ cy.val = y % 32) → cell (xorPixel f x y value).1 cx.val cy.val = cell f cx.val cy.val)

/-- R123, R124: DRW. Every cell of the grid is XOR-ed with the sprite's bit at it, clipped parts neither draw nor collide,
`VF` is 1 exactly when a set cell lay under a set bit, and is always written; a sprite that leaves memory faults. -/
def Obligations.DrwXorsTheClippedSprite : Prop :=
  ∀ (x y : Reg) (n : Fin 16) (s : State),
    Encodes (0xD000 + 0x100 * x.val + 0x10 * y.val + n.val) (.drw x y n) ∧ Runs (.drw x y n) s fun t =>
      (n.val = 0 ∨ s.i.toNat + n.val ≤ 0x1000 →
        (∀ (cx : Fin 64) (cy : Fin 32), t.pixel cx cy = (s.pixel cx cy ^^ spriteAt s x y n.val cx.val cy.val)) ∧
        ((∃ (cx : Fin 64) (cy : Fin 32), s.pixel cx cy = true ∧ spriteAt s x y n.val cx.val cy.val = true) → t.reg 15 = 1) ∧
        ((∀ (cx : Fin 64) (cy : Fin 32), s.pixel cx cy = true → spriteAt s x y n.val cx.val cy.val = false) → t.reg 15 = 0) ∧
        (∀ r : Reg, r ≠ 15 → t.reg r = s.reg r) ∧ SameBut [.fb, .v] s t) ∧
      (0 < n.val → 0x1000 < s.i.toNat + n.val →
        EntersFault .memOutOfBounds (s.pc - 2) (max s.i.toNat 0x1000) s t)

/-- R124: drawing the same sprite twice at the same place (whatever the program does to the other registers in between)
restores the framebuffer. The second draw collides exactly where
the first one had switched a cell on: where a set bit of the sprite, not clipped, lies over a cell that was clear before.
(Corner case (e) of R124 says "any set bit that is not clipped", which its own pseudocode bears out only on cells that were
clear; the model follows the pseudocode, log 20.) -/
def Obligations.DrwTwiceRestoresTheScreen : Prop :=
  ∀ (x y : Reg) (n : Fin 16) (s : State), n.val = 0 ∨ s.i.toNat + n.val ≤ 0x1000 →
    Runs (.drw x y n) s fun t => ∀ again : State, again.reg x = s.reg x → again.reg y = s.reg y →
      SameBut [.v, .pc, .inbox] t again → Runs (.drw x y n) again fun u =>
        (∀ cx cy, u.pixel cx cy = s.pixel cx cy) ∧
        ((∃ (cx : Fin 64) (cy : Fin 32), s.pixel cx cy = false ∧ spriteAt s x y n.val cx.val cy.val = true) →
          u.reg 15 = 1) ∧
        ((∀ (cx : Fin 64) (cy : Fin 32), spriteAt s x y n.val cx.val cy.val = true → s.pixel cx cy = true) →
          u.reg 15 = 0)

/-! ## Keypad and timers -/

/-- R130, R131, R132: SKP and SKNP on a value up to 0x0F test that key, on a higher value no key is held. -/
def Obligations.KeySkips : Prop :=
  ∀ (x : Reg) (s : State), Encodes (0xE09E + 0x100 * x.val) (.skp x) ∧ Encodes (0xE0A1 + 0x100 * x.val) (.sknp x) ∧
    (Runs (.skp x) s fun t => SameBut [.pc] s t ∧
      (∀ k : Key, (s.reg x).toNat = k.val → t.pc = if s.keys.getLsbD k.val then s.pc + 2 else s.pc) ∧
      (0x0F < (s.reg x).toNat → t.pc = s.pc)) ∧
    (Runs (.sknp x) s fun t => SameBut [.pc] s t ∧
      (∀ k : Key, (s.reg x).toNat = k.val → t.pc = if s.keys.getLsbD k.val then s.pc else s.pc + 2) ∧
      (0x0F < (s.reg x).toNat → t.pc = s.pc + 2))

/-- R133: WAITKEY sets the latch and changes nothing else; `PC` already points past it. -/
def Obligations.WaitKeySetsTheLatch : Prop :=
  ∀ (x : Reg) (s : State), Encodes (0xF00A + 0x100 * x.val) (.waitKey x) ∧
    Runs (.waitKey x) s fun t => t.run = .awaitingKey x ∧ SameBut [.run] s t

/-- R141, R142, R143: LD_DT, ST_DT, ST_ST; the tone follows `ST` at once. -/
def Obligations.TimerReadsAndWrites : Prop :=
  ∀ (x : Reg) (s : State), Encodes (0xF007 + 0x100 * x.val) (.ldDt x) ∧ Encodes (0xF015 + 0x100 * x.val) (.stDt x) ∧
    Encodes (0xF018 + 0x100 * x.val) (.stSt x) ∧
    Runs (.ldDt x) s (SetsReg x s.dt.toNat s) ∧
    (Runs (.stDt x) s fun t => t.dt = s.reg x ∧ SameBut [.dt] s t) ∧
    (Runs (.stSt x) s fun t => t.st = s.reg x ∧ (t.tone = true ↔ (s.reg x).toNat ≠ 0) ∧ SameBut [.st] s t)

/-! ## Memory instructions -/

/-- R151: BCD. The stored bytes are the three from `I` up. -/
def Obligations.BcdStoresThreeDigits : Prop :=
  ∀ (x : Reg) (s : State), Encodes (0xF033 + 0x100 * x.val) (.bcd x) ∧ Runs (.bcd x) s fun t =>
    (s.i.toNat + 3 ≤ 0x1000 →
      (Memory.get t.mem s.i.toNat).toNat = (s.reg x).toNat / 100 ∧
      (Memory.get t.mem (s.i.toNat + 1)).toNat = (s.reg x).toNat / 10 % 10 ∧
      (Memory.get t.mem (s.i.toNat + 2)).toNat = (s.reg x).toNat % 10 ∧
      (∀ a, a < s.i.toNat ∨ s.i.toNat + 2 < a → Memory.get t.mem a = Memory.get s.mem a) ∧ SameBut [.mem] s t) ∧
    (0x1000 < s.i.toNat + 3 → EntersFault .memOutOfBounds (s.pc - 2) (max s.i.toNat 0x1000) s t)

/-- R152: STM. The stored bytes are the `x + 1` from `I` up; `I` does not move. -/
def Obligations.StmStoresTheRegisters : Prop :=
  ∀ (x : Reg) (s : State), Encodes (0xF055 + 0x100 * x.val) (.stm x) ∧ Runs (.stm x) s fun t =>
    (s.i.toNat + x.val ≤ 0xFFF →
      (∀ k : Reg, k.val ≤ x.val → Memory.get t.mem (s.i.toNat + k.val) = s.reg k) ∧
      (∀ a, a < s.i.toNat ∨ s.i.toNat + x.val < a → Memory.get t.mem a = Memory.get s.mem a) ∧ SameBut [.mem] s t) ∧
    (0xFFF < s.i.toNat + x.val → EntersFault .memOutOfBounds (s.pc - 2) (max s.i.toNat 0x1000) s t)

/-- R153: LDM. The registers after `V[x]`, memory and `I` are unchanged. -/
def Obligations.LdmLoadsTheRegisters : Prop :=
  ∀ (x : Reg) (s : State), Encodes (0xF065 + 0x100 * x.val) (.ldm x) ∧ Runs (.ldm x) s fun t =>
    (s.i.toNat + x.val ≤ 0xFFF →
      (∀ k : Reg, k.val ≤ x.val → t.reg k = Memory.get s.mem (s.i.toNat + k.val)) ∧
      (∀ k : Reg, x.val < k.val → t.reg k = s.reg k) ∧ SameBut [.v] s t) ∧
    (0xFFF < s.i.toNat + x.val → EntersFault .memOutOfBounds (s.pc - 2) (max s.i.toNat 0x1000) s t)

/-- What STM has saved, LDM brings back, whatever has happened to the registers in between. -/
def Obligations.LdmRestoresWhatStmSaved : Prop :=
  ∀ (x : Reg) (s between : State), s.i.toNat + x.val ≤ 0xFFF → Runs (.stm x) s fun t =>
    between.i = t.i → (∀ a, Memory.get between.mem a = Memory.get t.mem a) →
      Runs (.ldm x) between fun u => ∀ k : Reg, k.val ≤ x.val → u.reg k = s.reg k

/-! ## Reserved words -/

/-- R67, R160: a reserved word is a NOP, and a NOP changes nothing (the step has advanced `PC`). -/
def Obligations.ReservedWordsDoNothing : Prop :=
  ∀ (op : Half) (s : State), reserved op = true → decode op = .nop op ∧ Runs (.nop op) s (SameBut [] s)

/-! ## The host's other moves -/

/-- R25: `press(k)` and `release(k)` set and clear one bit of `KEYS` and change nothing else; a pressed key pressed again, or
a released one released again, changes nothing. -/
def Obligations.PressAndRelease : Prop :=
  ∀ (k : Key) (s : State),
    (nextMove s = .press k → ∃ u, step s = .next u ∧ (∀ j : Key, u.isPressed j = (decide (j = k) || s.isPressed j)) ∧
      MoveTaken s u ∧ SameBut [.keys, .inbox] s u ∧ (s.isPressed k = true → u.keys = s.keys)) ∧
    (nextMove s = .release k → ∃ u, step s = .next u ∧ (∀ j : Key, u.isPressed j = (!decide (j = k) && s.isPressed j)) ∧
      MoveTaken s u ∧ SameBut [.keys, .inbox] s u ∧ (s.isPressed k = false → u.keys = s.keys))

/-- R224: the load of a program, while the load port is open (log 7): more than 3584 bytes give `OutOfSpace` and change no byte;
otherwise byte `k` stands at 0x200 + `k` and every other byte and all registers are unchanged. -/
def Obligations.LoadCopiesTheProgram : Prop :=
  ∀ (bytes : List Byte) (s : State), nextMove s = .load bytes → s.loadPort = .pending →
    ∃ u, step s = .next u ∧ MoveTaken s u ∧
      (3584 < bytes.length → u.loadPort = .outOfSpace ∧ SameBut [.loadPort, .inbox] s u) ∧
      (bytes.length ≤ 3584 → u.loadPort = .loaded ∧ SameBut [.mem, .loadPort, .inbox] s u ∧
        ∀ a, Memory.get u.mem a = if 0x200 ≤ a ∧ a < 0x200 + bytes.length then bytes.getD (a - 0x200) 0 else Memory.get s.mem a)

/-- R36, R220: what reset leaves, whatever state it comes in: the values the spec's decisions D2 and D3 give; in memory the
font region holds the parameter `FONT` and every other byte is zero (the font's bytes and the model's own inputs are named
in log 4, 5 and 9). -/
def Obligations.ResetGivesTheResetState : Prop :=
  ∀ s : State, nextMove s = .reset → ∃ u, step s = .next u ∧
    (∀ r : Reg, u.reg r = 0) ∧ u.i = 0 ∧ u.pc.toNat = 0x200 ∧ (∀ j : Fin 16, u.stack[j] = 0) ∧ u.sp.val = 0 ∧
    u.dt = 0 ∧ u.st = 0 ∧ u.tone = false ∧ u.run = .running ∧ (∀ x y, u.pixel x y = false) ∧
    (∀ k : Key, u.isPressed k = false) ∧
    (∀ a, Memory.get u.mem a = if h : a < Config.font.length then Config.font[a] else 0) ∧ Config.font.length = 80 ∧
    u.loadPort = .pending ∧ MoveTaken s u ∧ Same .rand s u
end

