-- ==== Sys2Proof/Laws/Decode.lean ====
section
/-! SUPPORT. The fields of a word as numbers, the fields of an encoded word, and how decoding and encoding meet. -/

namespace Sys2Proof

/-! ## Fields as numbers (R8) -/

theorem opFamily_eq (op : Half) : opFamily op = op.toNat / 4096 := by
  have := op.isLt
  simp only [opFamily, BitVec.extractLsb'_toNat, Nat.shiftRight_eq_div_pow]; omega

theorem opX_val (op : Half) : (opX op).val = op.toNat / 256 % 16 := by
  simp only [opX, BitVec.val_toFin, BitVec.extractLsb'_toNat, Nat.shiftRight_eq_div_pow]

theorem opY_val (op : Half) : (opY op).val = op.toNat / 16 % 16 := by
  simp only [opY, BitVec.val_toFin, BitVec.extractLsb'_toNat, Nat.shiftRight_eq_div_pow]

theorem opN_val (op : Half) : (opN op).val = op.toNat % 16 := by
  simp only [opN, BitVec.val_toFin, BitVec.extractLsb'_toNat, Nat.shiftRight_zero]

theorem opNN_toNat (op : Half) : (opNN op).toNat = op.toNat % 256 := by
  simp only [opNN, BitVec.extractLsb'_toNat, Nat.shiftRight_zero]

theorem opNNN_toNat (op : Half) : (opNNN op).toNat = op.toNat % 4096 := by
  simp only [opNNN, BitVec.extractLsb'_toNat, Nat.shiftRight_zero]

theorem opIgnored_toNat (op : Half) : (opIgnored op).toNat = op.toNat / 16 % 256 := by
  simp only [opIgnored, BitVec.extractLsb'_toNat, Nat.shiftRight_eq_div_pow]

theorem hiByte_toNat (op : Half) : (hiByte op).toNat = op.toNat / 256 := by
  have := op.isLt
  simp only [hiByte, BitVec.extractLsb'_toNat, Nat.shiftRight_eq_div_pow]; omega

theorem loByte_toNat (op : Half) : (loByte op).toNat = op.toNat % 256 := by
  simp only [loByte, BitVec.extractLsb'_toNat, Nat.shiftRight_zero]

/-! ## Words as numbers (R61) -/

theorem toNat_append_add {m n : Nat} (a : BitVec m) (b : BitVec n) :
    (a ++ b).toNat = a.toNat * 2 ^ n + b.toNat := by
  rw [BitVec.toNat_append, ← Nat.shiftLeft_add_eq_or_of_lt b.isLt, Nat.shiftLeft_eq]

theorem wordXNN_toNat (f : BitVec 4) (x : Reg) (nn : Byte) :
    (wordXNN f x nn).toNat = f.toNat * 4096 + x.val * 256 + nn.toNat := by
  have h := toNat_append_add (f ++ nib x) nn
  have h' := toNat_append_add f (nib x)
  have : (wordXNN f x nn).toNat = (f ++ nib x ++ nn).toNat := rfl
  have hx : (nib x).toNat = x.val := rfl
  omega

theorem wordXYN_toNat (f : BitVec 4) (x y : Reg) (n : BitVec 4) :
    (wordXYN f x y n).toNat = f.toNat * 4096 + x.val * 256 + y.val * 16 + n.toNat := by
  have h := toNat_append_add (f ++ nib x ++ nib y) n
  have h' := toNat_append_add (f ++ nib x) (nib y)
  have h'' := toNat_append_add f (nib x)
  have : (wordXYN f x y n).toNat = (f ++ nib x ++ nib y ++ n).toNat := rfl
  have hx : (nib x).toNat = x.val := rfl
  have hy : (nib y).toNat = y.val := rfl
  omega

theorem wordNNN_toNat (f : BitVec 4) (nnn : BitVec 12) :
    (wordNNN f nnn).toNat = f.toNat * 4096 + nnn.toNat := toNat_append_add f nnn

theorem wordZ_toNat (m : Byte) (n : BitVec 4) : (wordZ m n).toNat = m.toNat * 16 + n.toNat := by
  have h := toNat_append_add (0x0#4 ++ m) n
  have h' := toNat_append_add 0x0#4 m
  have : (wordZ m n).toNat = (0x0#4 ++ m ++ n).toNat := rfl
  have h0 : (0x0#4).toNat = 0 := rfl
  omega

theorem append_toNat (hi lo : Byte) : (hi ++ lo : Half).toNat = hi.toNat * 256 + lo.toNat := toNat_append_add hi lo

/-! ## Fields of words -/

section Fields
variable (f n : BitVec 4) (x y : Reg) (nn m : Byte) (nnn : BitVec 12)

@[simp] theorem opFamily_wordXNN : opFamily (wordXNN f x nn) = f.toNat := by
  rw [opFamily_eq, wordXNN_toNat]; omega
@[simp] theorem opX_wordXNN : opX (wordXNN f x nn) = x := by
  apply Fin.ext; rw [opX_val, wordXNN_toNat]; omega
@[simp] theorem opNN_wordXNN : opNN (wordXNN f x nn) = nn := by
  apply BitVec.eq_of_toNat_eq; rw [opNN_toNat, wordXNN_toNat]; omega

@[simp] theorem opFamily_wordXYN : opFamily (wordXYN f x y n) = f.toNat := by
  rw [opFamily_eq, wordXYN_toNat]; omega
@[simp] theorem opX_wordXYN : opX (wordXYN f x y n) = x := by
  apply Fin.ext; rw [opX_val, wordXYN_toNat]; omega
@[simp] theorem opY_wordXYN : opY (wordXYN f x y n) = y := by
  apply Fin.ext; rw [opY_val, wordXYN_toNat]; omega
@[simp] theorem opN_wordXYN : opN (wordXYN f x y n) = n.toFin := by
  apply Fin.ext; have : n.toFin.val = n.toNat := rfl; rw [opN_val, wordXYN_toNat]; omega

@[simp] theorem opFamily_wordNNN : opFamily (wordNNN f nnn) = f.toNat := by
  rw [opFamily_eq, wordNNN_toNat]; omega
@[simp] theorem opNNN_wordNNN : opNNN (wordNNN f nnn) = nnn := by
  apply BitVec.eq_of_toNat_eq; rw [opNNN_toNat, wordNNN_toNat]; omega

@[simp] theorem opFamily_wordZ : opFamily (wordZ m n) = 0 := by
  rw [opFamily_eq, wordZ_toNat]; omega
@[simp] theorem opIgnored_wordZ : opIgnored (wordZ m n) = m := by
  apply BitVec.eq_of_toNat_eq; rw [opIgnored_toNat, wordZ_toNat]; omega
@[simp] theorem opN_wordZ : opN (wordZ m n) = n.toFin := by
  apply Fin.ext; have : n.toFin.val = n.toNat := rfl; rw [opN_val, wordZ_toNat]; omega

end Fields

/-- The two bytes of a word, put together big-endian, are the word (R44). -/
theorem hiByte_append_loByte (w : Half) : (hiByte w ++ loByte w : Half) = w := by
  apply BitVec.eq_of_toNat_eq
  rw [append_toNat, hiByte_toNat, loByte_toNat]; omega

@[simp] theorem decodeBytes_encodeBytes (i : Instr) (rest : List Byte) :
    decodeBytes (encodeBytes i ++ rest) = .ok (decode (encode i), rest) := by
  simp [encodeBytes, decodeBytes, hiByte_append_loByte]

theorem decodeTableWord_eq (nbits w : Nat) : decodeTableWord nbits w = some (decode (tableWord nbits w)) := by
  simp [decodeTableWord, decodeBytes, hiByte_append_loByte]

/-! ## What a word decodes to -/

/-- The reserved space of R67 in the decoder's own fields. -/
theorem reserved_eq (op : Half) : reserved op =
    match opFamily op with
    | 0x0 => (opN op).val != 0x0 && (opN op).val != 0xE
    | 0x5 => (opN op).val != 0
    | 0x8 => [0x8, 0x9, 0xA, 0xB, 0xC, 0xD, 0xF].contains (opN op).val
    | 0x9 => (opN op).val != 0
    | 0xE => !([0x9E, 0xA1].contains (opNN op).toNat)
    | 0xF => !([0x07, 0x0A, 0x15, 0x18, 0x1E, 0x29, 0x33, 0x55, 0x65].contains (opNN op).toNat)
    | _ => false := by
  rw [opFamily_eq, opN_val, opNN_toNat]; rfl

theorem opFamily_lt (op : Half) : opFamily op < 16 := by
  have := op.isLt; rw [opFamily_eq]; omega


/-- What a word's fields are when it decodes to an instruction (R63 to R67): the inversion of the decoder. -/
def Decoded (op : Half) : Instr → Prop
  | .cls m => opFamily op = 0x0 ∧ (opN op).val = 0x0 ∧ m = opIgnored op
  | .ret m => opFamily op = 0x0 ∧ (opN op).val = 0xE ∧ m = opIgnored op
  | .jp nnn => opFamily op = 0x1 ∧ nnn = opNNN op
  | .call nnn => opFamily op = 0x2 ∧ nnn = opNNN op
  | .seImm x nn => opFamily op = 0x3 ∧ x = opX op ∧ nn = opNN op
  | .sneImm x nn => opFamily op = 0x4 ∧ x = opX op ∧ nn = opNN op
  | .seReg x y => opFamily op = 0x5 ∧ (opN op).val = 0x0 ∧ x = opX op ∧ y = opY op
  | .ldImm x nn => opFamily op = 0x6 ∧ x = opX op ∧ nn = opNN op
  | .addImm x nn => opFamily op = 0x7 ∧ x = opX op ∧ nn = opNN op
  | .mov x y => opFamily op = 0x8 ∧ (opN op).val = 0x0 ∧ x = opX op ∧ y = opY op
  | .or x y => opFamily op = 0x8 ∧ (opN op).val = 0x1 ∧ x = opX op ∧ y = opY op
  | .and x y => opFamily op = 0x8 ∧ (opN op).val = 0x2 ∧ x = opX op ∧ y = opY op
  | .xor x y => opFamily op = 0x8 ∧ (opN op).val = 0x3 ∧ x = opX op ∧ y = opY op
  | .addReg x y => opFamily op = 0x8 ∧ (opN op).val = 0x4 ∧ x = opX op ∧ y = opY op
  | .sub x y => opFamily op = 0x8 ∧ (opN op).val = 0x5 ∧ x = opX op ∧ y = opY op
  | .shr x y => opFamily op = 0x8 ∧ (opN op).val = 0x6 ∧ x = opX op ∧ y = opY op
  | .subn x y => opFamily op = 0x8 ∧ (opN op).val = 0x7 ∧ x = opX op ∧ y = opY op
  | .shl x y => opFamily op = 0x8 ∧ (opN op).val = 0xE ∧ x = opX op ∧ y = opY op
  | .sneReg x y => opFamily op = 0x9 ∧ (opN op).val = 0x0 ∧ x = opX op ∧ y = opY op
  | .ldIndex nnn => opFamily op = 0xA ∧ nnn = opNNN op
  | .jpV0 nnn => opFamily op = 0xB ∧ nnn = opNNN op
  | .rnd x nn => opFamily op = 0xC ∧ x = opX op ∧ nn = opNN op
  | .drw x y n => opFamily op = 0xD ∧ x = opX op ∧ y = opY op ∧ n = opN op
  | .skp x => opFamily op = 0xE ∧ (opNN op).toNat = 0x9E ∧ x = opX op
  | .sknp x => opFamily op = 0xE ∧ (opNN op).toNat = 0xA1 ∧ x = opX op
  | .ldDt x => opFamily op = 0xF ∧ (opNN op).toNat = 0x07 ∧ x = opX op
  | .waitKey x => opFamily op = 0xF ∧ (opNN op).toNat = 0x0A ∧ x = opX op
  | .stDt x => opFamily op = 0xF ∧ (opNN op).toNat = 0x15 ∧ x = opX op
  | .stSt x => opFamily op = 0xF ∧ (opNN op).toNat = 0x18 ∧ x = opX op
  | .addIndex x => opFamily op = 0xF ∧ (opNN op).toNat = 0x1E ∧ x = opX op
  | .font x => opFamily op = 0xF ∧ (opNN op).toNat = 0x29 ∧ x = opX op
  | .bcd x => opFamily op = 0xF ∧ (opNN op).toNat = 0x33 ∧ x = opX op
  | .stm x => opFamily op = 0xF ∧ (opNN op).toNat = 0x55 ∧ x = opX op
  | .ldm x => opFamily op = 0xF ∧ (opNN op).toNat = 0x65 ∧ x = opX op
  | .nop w => reserved op = true ∧ w = op

theorem decodeFamily0_spec {op : Half} (hf : opFamily op = 0x0) : Decoded op (decodeFamily0 op) := by
  simp only [decodeFamily0, Config.family0Exact, Bool.false_and, Bool.false_eq_true, if_false]
  split
  case h_3 h0 hE => exact ⟨by rw [reserved_eq, hf]; exact Bool.and_eq_true_iff.mpr ⟨bne_iff_ne.mpr h0, bne_iff_ne.mpr hE⟩, rfl⟩
  all_goals exact ⟨hf, by assumption, rfl⟩

theorem decodeFamily8_spec {op : Half} (hf : opFamily op = 0x8) : Decoded op (decodeFamily8 op) := by
  unfold decodeFamily8
  split
  case h_10 =>
    have := (opN op).isLt
    refine ⟨?_, rfl⟩
    rw [reserved_eq, hf]
    generalize (opN op).val = k at *
    interval_cases k <;> first | rfl | contradiction
  all_goals exact ⟨hf, by assumption, rfl, rfl⟩

theorem decodeFamilyE_spec {op : Half} (hf : opFamily op = 0xE) : Decoded op (decodeFamilyE op) := by
  unfold decodeFamilyE
  split
  case h_3 h1 h2 => exact ⟨by rw [reserved_eq, hf]; simpa using ⟨h1, h2⟩, rfl⟩
  all_goals exact ⟨hf, by assumption, rfl⟩

theorem decodeFamilyF_spec {op : Half} (hf : opFamily op = 0xF) : Decoded op (decodeFamilyF op) := by
  unfold decodeFamilyF
  split
  case h_10 h1 h2 h3 h4 h5 h6 h7 h8 h9 =>
    exact ⟨by rw [reserved_eq, hf]; simpa using ⟨h1, h2, h3, h4, h5, h6, h7, h8, h9⟩, rfl⟩
  all_goals exact ⟨hf, by assumption, rfl⟩

theorem decode_spec (op : Half) : Decoded op (decode op) := by
  unfold decode
  split
  case h_1 hf => exact decodeFamily0_spec hf
  case h_9 hf => exact decodeFamily8_spec hf
  case h_15 hf => exact decodeFamilyE_spec hf
  case h_16 =>
    have := opFamily_lt op
    refine decodeFamilyF_spec ?_
    generalize opFamily op = f at *
    interval_cases f <;> first | rfl | contradiction
  case h_6 hf =>
    by_cases h : opN op = 0
    · rw [if_pos h]; exact ⟨hf, congrArg Fin.val h, rfl, rfl⟩
    · rw [if_neg h]; exact ⟨by rw [reserved_eq, hf]; exact bne_iff_ne.mpr fun e => h (Fin.ext e), rfl⟩
  case h_10 hf =>
    by_cases h : opN op = 0
    · rw [if_pos h]; exact ⟨hf, congrArg Fin.val h, rfl, rfl⟩
    · rw [if_neg h]; exact ⟨by rw [reserved_eq, hf]; exact bne_iff_ne.mpr fun e => h (Fin.ext e), rfl⟩
  all_goals first | exact ⟨by assumption, rfl⟩ | exact ⟨by assumption, rfl, rfl⟩ | exact ⟨by assumption, rfl, rfl, rfl⟩

/-- Encoding what a word decodes to gives the word back: no bit of a word is dropped. -/
theorem encode_of_decoded {op : Half} {i : Instr} (h : Decoded op i) : encode i = op := by
  have hf := opFamily_eq op
  have hx := opX_val op
  have hy := opY_val op
  have hn := opN_val op
  have hnn := opNN_toNat op
  have hnnn := opNNN_toNat op
  have hm := opIgnored_toNat op
  have hop := op.isLt
  apply BitVec.eq_of_toNat_eq
  cases i <;> simp only [Decoded] at h
  case nop => rw [h.2]; rfl
  case drw =>
    obtain ⟨h1, rfl, rfl, rfl⟩ := h
    have : (nib (opN op)).toNat = (opN op).val := rfl
    simp only [encode, wordXYN_toNat, this, BitVec.reduceToNat]; omega
  all_goals first
    | (obtain ⟨h1, h2, rfl, rfl⟩ := h; simp only [encode, wordXYN_toNat, BitVec.reduceToNat]; omega)
    | (obtain ⟨h1, rfl, rfl⟩ := h; simp only [encode, wordXNN_toNat, BitVec.reduceToNat]; omega)
    | (obtain ⟨h1, h2, rfl⟩ := h; simp only [encode, wordXNN_toNat, wordZ_toNat, BitVec.reduceToNat]; omega)
    | (obtain ⟨h1, rfl⟩ := h; simp only [encode, wordNNN_toNat, BitVec.reduceToNat]; omega)

theorem encode_decode (op : Half) : encode (decode op) = op := encode_of_decoded (decode_spec op)

/-- What a word decodes to is well-formed. -/
theorem wf_of_decoded {op : Half} {i : Instr} (h : Decoded op i) : i.wf = true := by
  cases i <;> first | rfl | exact h.2 ▸ h.1

/-- A reserved word decodes to NOP, which keeps the word (R67, R160). -/
theorem decode_of_reserved {op : Half} (h : reserved op = true) : decode op = .nop op := by
  have hd := decode_spec op
  rw [reserved_eq] at h
  cases hi : decode op <;> simp only [hi, Decoded] at hd
  case nop => rw [hd.2]
  all_goals first
    | (simp [hd.1] at h; done)
    | simp [hd.1, hd.2.1] at h

/-! ## Masks and patterns of the opcode map (R66) -/

/-- Matching under the mask F000 of R66 compares the family. -/
theorem and_F000 (w : Half) (k : BitVec 4) : (w &&& 0xF000 = k ++ 0#12) ↔ opFamily w = k.toNat := by
  have h : w = wordNNN (w.extractLsb' 12 4) (w.extractLsb' 0 12) := by
    apply BitVec.eq_of_toNat_eq; rw [wordNNN_toNat]; simp [BitVec.extractLsb'_toNat, Nat.shiftRight_eq_div_pow]; have := w.isLt; omega
  generalize w.extractLsb' 12 4 = f at h
  generalize w.extractLsb' 0 12 = g at h
  subst h
  rw [opFamily_wordNNN]
  have : (0xF000 : Half) = 0xF#4 ++ 0#12 := rfl
  rw [this]
  have e : (wordNNN f g &&& (0xF#4 ++ 0#12)) = ((f &&& 0xF#4) ++ (g &&& 0#12)) := by
    show ((f ++ g : BitVec (4+12)) &&& (0xF#4 ++ 0#12)) = _
    exact BitVec.and_append
  rw [e]
  have hf : f &&& 0xF#4 = f := BitVec.and_allOnes
  rw [hf, BitVec.and_zero]
  constructor
  · intro h
    have := congrArg BitVec.toNat h
    rw [toNat_append_add, toNat_append_add] at this; simp at this; exact this
  · intro h; rw [BitVec.eq_of_toNat_eq h]

/-- Matching under the mask F00F of R66 compares the family and the low nibble. -/
theorem and_F00F (w : Half) (k n : BitVec 4) : (w &&& 0xF00F = k ++ 0#8 ++ n) ↔ opFamily w = k.toNat ∧ (opN w).val = n.toNat := by
  have h : w = wordXYN (w.extractLsb' 12 4) (opX w) (opY w) (w.extractLsb' 0 4) := by
    apply BitVec.eq_of_toNat_eq; rw [wordXYN_toNat, opX_val, opY_val]; simp [BitVec.extractLsb'_toNat, Nat.shiftRight_eq_div_pow]; have := w.isLt; omega
  generalize w.extractLsb' 12 4 = f at h
  generalize w.extractLsb' 0 4 = g at h
  generalize opX w = x at h
  generalize opY w = y at h
  subst h
  rw [opFamily_wordXYN, opN_wordXYN]
  have e : (wordXYN f x y g &&& 0xF00F) = ((((f &&& 0xF#4) ++ (nib x &&& 0#4)) ++ (nib y &&& 0#4)) ++ (g &&& 0xF#4)) := by
    show ((((f ++ nib x) ++ nib y) ++ g : BitVec (4+4+4+4)) &&& (((0xF#4 ++ 0#4) ++ 0#4) ++ 0xF#4)) = _
    rw [BitVec.and_append, BitVec.and_append, BitVec.and_append]
  have hf : f &&& 0xF#4 = f := BitVec.and_allOnes
  have hg : g &&& 0xF#4 = g := BitVec.and_allOnes
  rw [e, hf, hg, BitVec.and_zero, BitVec.and_zero]
  have e1 : (f ++ 0#4 ++ 0#4 ++ g : BitVec 16).toNat = f.toNat * 4096 + g.toNat := by
    have h1 := toNat_append_add (f ++ 0#4 ++ 0#4) g
    have h2 := toNat_append_add (f ++ 0#4) 0#4
    have h3 := toNat_append_add f 0#4
    simp at h2 h3
    have : (f ++ 0#4 ++ 0#4 ++ g : BitVec 16).toNat = (f ++ 0#4 ++ 0#4 ++ g).toNat := rfl
    omega
  have e2 : (k ++ 0#8 ++ n : BitVec 16).toNat = k.toNat * 4096 + n.toNat := by
    have h1 := toNat_append_add (k ++ 0#8) n
    have h2 := toNat_append_add k 0#8
    simp at h2
    have : (k ++ 0#8 ++ n : BitVec 16).toNat = (k ++ 0#8 ++ n).toNat := rfl
    omega
  have hn : (g.toFin).val = g.toNat := rfl
  constructor
  · intro h
    have := congrArg BitVec.toNat h
    have := e1.symm.trans (this.trans e2)
    rw [hn]; omega
  · intro h; apply BitVec.eq_of_toNat_eq
    refine e1.trans (Eq.trans ?_ e2.symm); omega

/-- Matching under the mask F0FF of R66 compares the family and the low byte. -/
theorem and_F0FF (w : Half) (k : BitVec 4) (n : Byte) : (w &&& 0xF0FF = k ++ 0#4 ++ n) ↔ opFamily w = k.toNat ∧ (opNN w).toNat = n.toNat := by
  have h : w = wordXNN (w.extractLsb' 12 4) (opX w) (opNN w) := by
    apply BitVec.eq_of_toNat_eq; rw [wordXNN_toNat, opX_val, opNN_toNat]; simp [BitVec.extractLsb'_toNat, Nat.shiftRight_eq_div_pow]; have := w.isLt; omega
  generalize w.extractLsb' 12 4 = f at h
  generalize opNN w = g at h
  generalize opX w = x at h
  subst h
  rw [opFamily_wordXNN]
  have e : (wordXNN f x g &&& 0xF0FF) = (((f &&& 0xF#4) ++ (nib x &&& 0#4)) ++ (g &&& 0xFF#8)) := by
    show (((f ++ nib x) ++ g : BitVec (4+4+8)) &&& ((0xF#4 ++ 0#4) ++ 0xFF#8)) = _
    rw [BitVec.and_append, BitVec.and_append]
  have hf : f &&& 0xF#4 = f := BitVec.and_allOnes
  have hg : g &&& 0xFF#8 = g := BitVec.and_allOnes
  rw [e, hf, hg, BitVec.and_zero]
  have e1 (f : BitVec 4) (g : Byte) : (f ++ 0#4 ++ g : BitVec 16).toNat = f.toNat * 4096 + g.toNat := by
    have : (f ++ 0#4 ++ g : BitVec 16) = wordXNN f 0 g := rfl
    rw [this, wordXNN_toNat]; simp
  constructor
  · intro h
    have := congrArg BitVec.toNat h
    have := (e1 f g).symm.trans (this.trans (e1 k n))
    omega
  · intro h; apply BitVec.eq_of_toNat_eq
    refine (e1 f g).trans (Eq.trans ?_ (e1 k n).symm); omega


/-- A word of format `XNN` as the number its pattern shows (R66). -/
theorem ofNat_wordXNN (k : Nat) (f : BitVec 4) (hk : f.toNat * 4096 = k) (x : Reg) (nn : Byte) : BitVec.ofNat 16 (k + 0x100 * x.val + nn.toNat) = wordXNN f x nn := by
  apply BitVec.eq_of_toNat_eq; rw [wordXNN_toNat, BitVec.toNat_ofNat]; have := f.isLt; have := x.isLt; have := nn.isLt; omega
/-- A word of format `XY` as a number. -/
theorem ofNat_wordXYN (k : Nat) (f n : BitVec 4) (hk : f.toNat * 4096 + n.toNat = k) (x y : Reg) : BitVec.ofNat 16 (k + 0x100 * x.val + 0x10 * y.val) = wordXYN f x y n := by
  apply BitVec.eq_of_toNat_eq; rw [wordXYN_toNat, BitVec.toNat_ofNat]; have := f.isLt; have := x.isLt; have := y.isLt; have := n.isLt; omega
/-- A word of format `NNN` as a number. -/
theorem ofNat_wordNNN (k : Nat) (f : BitVec 4) (hk : f.toNat * 4096 = k) (nnn : BitVec 12) : BitVec.ofNat 16 (k + nnn.toNat) = wordNNN f nnn := by
  apply BitVec.eq_of_toNat_eq; rw [wordNNN_toNat, BitVec.toNat_ofNat]; have := f.isLt; have := nnn.isLt; omega
/-- A word of format `Z` as a number. -/
theorem ofNat_wordZ (n : BitVec 4) (m : Byte) : BitVec.ofNat 16 (n.toNat + 0x10 * m.toNat) = wordZ m n := by
  apply BitVec.eq_of_toNat_eq; rw [wordZ_toNat, BitVec.toNat_ofNat]; have := n.isLt; have := m.isLt; omega
/-- A word of format `X` as a number. -/
theorem ofNat_wordX (k : Nat) (f : BitVec 4) (nn : Byte) (hk : f.toNat * 4096 + nn.toNat = k) (x : Reg) : BitVec.ofNat 16 (k + 0x100 * x.val) = wordXNN f x nn := by
  apply BitVec.eq_of_toNat_eq; rw [wordXNN_toNat, BitVec.toNat_ofNat]; have := f.isLt; have := x.isLt; have := nn.isLt; omega

end Sys2Proof
end

