-- ==== Sys2Proof/Laws/Display.lean ====
section
/-! SUPPORT. What the framebuffer primitives do to one cell: `clear()` (R120), `xor_pixel` (R122), one sprite row and a
whole sprite (R123, R124). -/

namespace Sys2Proof.Machine

/-- R120: after `clear()` every cell reads 0. -/
@[simp] theorem cell_clearedFb (x y : Nat) : cell clearedFb x y = false := by
  unfold cell clearedFb
  rw [Vector.getElem?_replicate]
  split <;> simp

/-- R122: `xor_pixel` inverts the addressed (wrapped) cell if the source bit is set and changes no other cell. -/
theorem cell_xorPixel (f : Vector (BitVec 64) 32) (x y : Nat) (value : Bool) (cx cy : Nat) (hx : cx < 64) (hy : cy < 32) :
    cell (xorPixel f x y value).1 cx cy = (cell f cx cy ^^ (value && decide (cx = x % 64 ∧ cy = y % 32))) := by
  simp only [xorPixel, cell, Config.fbWidth, Config.fbHeight]
  by_cases h : cy = y % 32
  · subst h
    rw [Vector.getElem?_setIfInBounds_self_of_lt (by omega)]
    cases value <;> simp [hx]
  · rw [Vector.getElem?_setIfInBounds_ne (by omega)]
    simp [h]

/-- R122: the collision is the old cell and the source bit. -/
theorem xorPixel_hit (f : Vector (BitVec 64) 32) (x y : Nat) (value : Bool) :
    (xorPixel f x y value).2 = (cell f (x % 64) (y % 32) && value) := rfl

/-- One sprite row: the cells from column `x0 + col` on are XOR-ed with the row's bits, most significant first, up to the
right edge; no other cell changes. -/
theorem cell_drawCols (k : Nat) (f : Vector (BitVec 64) 32) (hit : Bool) (x0 y : Nat) (b : Byte) (col : Nat) (hy : y < 32)
    (cx cy : Nat) (hcx : cx < 64) (hcy : cy < 32) :
    cell (drawCols f hit x0 y b col k).1 cx cy =
      (cell f cx cy ^^ (decide (cy = y ∧ x0 + col ≤ cx ∧ cx < x0 + col + k) && b.getLsbD (7 - (cx - x0)))) := by
  induction k generalizing f hit col with
  | zero => rw [drawCols, decide_eq_false (by omega)]; simp
  | succ k ih =>
    rw [drawCols]
    split
    · rw [decide_eq_false (by omega)]; simp
    · rename_i h
      rw [ih, cell_xorPixel _ _ _ _ _ _ hcx hcy, Nat.mod_eq_of_lt (by omega : x0 + col < 64), Nat.mod_eq_of_lt hy]
      by_cases h1 : cx = x0 + col ∧ cy = y
      · have e : 7 - (cx - x0) = 7 - col := by omega
        rw [decide_eq_true h1, decide_eq_false (by omega), decide_eq_true (by omega), e]; simp
      · rw [decide_eq_false h1]
        have : (cy = y ∧ x0 + (col + 1) ≤ cx ∧ cx < x0 + (col + 1) + k) ↔
            (cy = y ∧ x0 + col ≤ cx ∧ cx < x0 + col + (k + 1)) := by omega
        simp [this]

/-- One sprite row: a collision is a set cell under a set bit of the row, left of the right edge. -/
theorem drawCols_hit (k : Nat) (f : Vector (BitVec 64) 32) (hit : Bool) (x0 y : Nat) (b : Byte) (col : Nat) (hy : y < 32) :
    (drawCols f hit x0 y b col k).2 = true ↔
      hit = true ∨ ∃ cx, cx < 64 ∧ x0 + col ≤ cx ∧ cx < x0 + col + k ∧ cell f cx y = true ∧
        b.getLsbD (7 - (cx - x0)) = true := by
  induction k generalizing f hit col with
  | zero =>
    rw [drawCols]
    constructor
    · exact Or.inl
    · rintro (h | ⟨cx, _, _, _, _⟩)
      · exact h
      · omega
  | succ k ih =>
    rw [drawCols]
    split
    · constructor
      · exact Or.inl
      · rintro (h | ⟨cx, _, _, _, _⟩)
        · exact h
        · omega
    · rename_i h
      rw [ih, xorPixel_hit, Nat.mod_eq_of_lt (by omega : x0 + col < 64), Nat.mod_eq_of_lt hy, Bool.or_eq_true,
        Bool.and_eq_true, or_assoc]
      refine or_congr_right ?_
      constructor
      · rintro (⟨h1, h2⟩ | ⟨cx, h1, h2, h3, h4, h5⟩)
        · exact ⟨x0 + col, by omega, by omega, by omega, h1, by rw [show x0 + col - x0 = col by omega]; exact h2⟩
        · rw [cell_xorPixel _ _ _ _ _ _ h1 hy, decide_eq_false (by omega)] at h4
          exact ⟨cx, h1, by omega, by omega, by simpa using h4, h5⟩
      · rintro ⟨cx, h1, h2, h3, h4, h5⟩
        by_cases he : cx = x0 + col
        · subst he
          exact Or.inl ⟨h4, by rw [show x0 + col - x0 = col by omega] at h5; exact h5⟩
        · refine Or.inr ⟨cx, h1, by omega, by omega, ?_, h5⟩
          rw [cell_xorPixel _ _ _ _ _ _ h1 hy, decide_eq_false (by omega)]
          simpa using h4

/-- The sprite's bit at a cell, for the sprite bytes `bs` with origin `(x0, y0)`: the sprite extends 8 columns right and
`bs.length` rows down, most significant bit first (R123, R124). -/
def spriteBit (bs : List Byte) (x0 y0 cx cy : Nat) : Bool :=
  decide (y0 ≤ cy ∧ cy < y0 + bs.length ∧ x0 ≤ cx ∧ cx < x0 + 8) && (bs.getD (cy - y0) 0).getLsbD (7 - (cx - x0))

theorem spriteBit_cons (b : Byte) (bs : List Byte) (x0 y0 cx cy : Nat) :
    spriteBit (b :: bs) x0 y0 cx cy =
      ((decide (cy = y0 ∧ x0 ≤ cx ∧ cx < x0 + 8) && b.getLsbD (7 - (cx - x0))) ^^ spriteBit bs x0 (y0 + 1) cx cy) := by
  unfold spriteBit
  by_cases h : cy = y0
  · subst h
    rw [decide_eq_false (p := cy + 1 ≤ cy ∧ _) (by omega), Nat.sub_self]
    simp only [List.getD_cons_zero, Bool.false_and, Bool.xor_false]
    congr 1
    exact decide_eq_decide.mpr (by simp)
  · rw [decide_eq_false (p := cy = y0 ∧ _) (by omega)]
    by_cases h2 : y0 ≤ cy
    · obtain ⟨d, hd⟩ : ∃ d, cy - y0 = d + 1 := ⟨cy - y0 - 1, by omega⟩
      rw [hd, List.getD_cons_succ, show cy - (y0 + 1) = d by omega]
      simp only [Bool.false_and, Bool.false_xor]
      congr 1
      exact decide_eq_decide.mpr (by simp only [List.length_cons]; omega)
    · rw [decide_eq_false (by omega), decide_eq_false (by omega)]; rfl

/-- A whole sprite: every cell of the grid is XOR-ed with the sprite's bit at it (R123, R124). -/
theorem cell_drawRows (bs : List Byte) (f : Vector (BitVec 64) 32) (hit : Bool) (x0 y : Nat)
    (cx cy : Nat) (hcx : cx < 64) (hcy : cy < 32) :
    cell (drawRows f hit x0 y bs).1 cx cy = (cell f cx cy ^^ spriteBit bs x0 y cx cy) := by
  induction bs generalizing f hit y with
  | nil => rw [drawRows, spriteBit, decide_eq_false (by simp only [List.length_nil]; omega)]; simp
  | cons b bs ih =>
    rw [drawRows]
    split
    · rw [spriteBit, decide_eq_false (by omega)]; simp
    · rw [ih, cell_drawCols _ _ _ _ _ _ _ (by omega) _ _ hcx hcy, spriteBit_cons, Bool.xor_assoc]; rfl

/-- A whole sprite: a collision is a set cell of the grid under a set bit of the sprite (R124). -/
theorem drawRows_hit (bs : List Byte) (f : Vector (BitVec 64) 32) (hit : Bool) (x0 y : Nat) :
    (drawRows f hit x0 y bs).2 = true ↔
      hit = true ∨ ∃ cx cy, cx < 64 ∧ cy < 32 ∧ cell f cx cy = true ∧ spriteBit bs x0 y cx cy = true := by
  induction bs generalizing f hit y with
  | nil =>
    rw [drawRows]
    constructor
    · exact Or.inl
    · rintro (h | ⟨cx, cy, _, _, _, h⟩)
      · exact h
      · rw [spriteBit, decide_eq_false (by simp only [List.length_nil]; omega)] at h; simp at h
  | cons b bs ih =>
    rw [drawRows]
    split
    · constructor
      · exact Or.inl
      · rintro (h | ⟨cx, cy, _, _, _, h⟩)
        · exact h
        · rw [spriteBit, decide_eq_false (by omega)] at h; simp at h
    · rename_i hy
      have hy : y < 32 := by omega
      rw [ih, drawCols_hit _ _ _ _ _ _ _ hy, or_assoc]
      refine or_congr_right ?_
      constructor
      · rintro (⟨cx, h1, h2, h3, h4, h5⟩ | ⟨cx, cy, h1, h2, h3, h4⟩)
        · refine ⟨cx, y, h1, hy, h4, ?_⟩
          rw [spriteBit_cons, decide_eq_true (by omega), h5, spriteBit, decide_eq_false (by omega)]; rfl
        · have hcy : cy ≠ y := by
            intro e; subst e; rw [spriteBit, decide_eq_false (by omega)] at h4; simp at h4
          rw [cell_drawCols _ _ _ _ _ _ _ hy _ _ h1 h2, decide_eq_false (by omega)] at h3
          refine ⟨cx, cy, h1, h2, by simpa using h3, ?_⟩
          rw [spriteBit_cons, decide_eq_false (by omega), h4]; rfl
      · rintro ⟨cx, cy, h1, h2, h3, h4⟩
        by_cases he : cy = y
        · subst he
          rw [spriteBit_cons, spriteBit, decide_eq_false (p := cy + 1 ≤ cy ∧ _) (by omega)] at h4
          simp only [Bool.false_and, Bool.xor_false, Bool.and_eq_true, decide_eq_true_eq] at h4
          exact Or.inl ⟨cx, h1, by omega, by omega, h3, h4.2⟩
        · refine Or.inr ⟨cx, cy, h1, h2, ?_, ?_⟩
          · rw [cell_drawCols _ _ _ _ _ _ _ hy _ _ h1 h2, decide_eq_false (by omega)]; simpa using h3
          · rw [spriteBit_cons, decide_eq_false (by omega)] at h4; simpa using h4

end Sys2Proof.Machine
end

