-- ==== Sys2Proof/Laws/Memory.lean ====
section
/-! SUPPORT. The laws of memory: a read after a write, what a write leaves, and that every operation keeps the canonical
form, in which equal memories are equal data. -/

namespace Sys2Proof.Machine

/-! ## Read after write -/

theorem Memory.lookup_put (m : List Host.Cell) (a c : Nat) (b : Byte) :
    Memory.lookup (Memory.put m a b) c = if c = a then some b else Memory.lookup m c := by
  induction m with
  | nil => simp [Memory.put, Memory.lookup, eq_comm]
  | cons e m ih =>
    obtain ⟨k, d⟩ := e
    simp only [Memory.put]
    split
    · simp [Memory.lookup, eq_comm]
    · split
      · subst k
        by_cases h : c = a
        · simp [Memory.lookup, h]
        · simp [Memory.lookup, h, Ne.symm h]
      · by_cases h : k = c
        · subst k; simp [Memory.lookup, eq_comm, *]
        · simp [Memory.lookup, h, ih]

theorem Memory.lookup_erase (m : List Host.Cell) (a c : Nat) :
    Memory.lookup (m.filter (fun e => e.1 != a)) c = if c = a then none else Memory.lookup m c := by
  induction m with
  | nil => simp [Memory.lookup]
  | cons e m ih =>
    obtain ⟨k, d⟩ := e
    by_cases hk : k = a
    · subst k
      by_cases h : c = a
      · subst h; simpa using ih
      · have : ¬ a = c := fun e => h e.symm
        simp [ih, h, Memory.lookup, this]
    · by_cases h : k = c
      · subst k; simp [hk, Memory.lookup]
      · simp [hk, Memory.lookup, h, ih]

/-- A read after a write gives the byte written at that address and what stood there before at every other. -/
theorem Memory.get_set (m : List Host.Cell) (a c : Nat) (b : Byte) :
    Memory.get (Memory.set m a b) c = if c = a then b else Memory.get m c := by
  unfold Memory.get Memory.set
  split
  · rw [Memory.lookup_erase]
    by_cases h : c = a <;> simp [*]
  · rw [Memory.lookup_put]
    by_cases h : c = a <;> simp [h]

@[simp] theorem Memory.get_set_same (m : List Host.Cell) (a : Nat) (b : Byte) :
    Memory.get (Memory.set m a b) a = b := by simp [Memory.get_set]

theorem Memory.get_set_ne (m : List Host.Cell) {a c : Nat} (b : Byte) (h : c ≠ a) :
    Memory.get (Memory.set m a b) c = Memory.get m c := by simp [Memory.get_set, h]

/-- A read after a store of a byte sequence: inside it the byte stored there, outside it the byte from before. -/
theorem Memory.get_setBytes (bs : List Byte) (m : List Host.Cell) (a c : Nat) :
    Memory.get (Memory.setBytes m a bs) c =
      if a ≤ c ∧ c < a + bs.length then bs.getD (c - a) 0 else Memory.get m c := by
  induction bs generalizing m a with
  | nil => rw [Memory.setBytes, if_neg (by simp only [List.length_nil]; omega)]
  | cons b bs ih =>
    rw [Memory.setBytes, ih, Memory.get_set]
    by_cases h1 : a + 1 ≤ c ∧ c < a + 1 + bs.length
    · have h2 : a ≤ c ∧ c < a + (b :: bs).length := by simp only [List.length_cons]; omega
      rw [if_pos h1, if_pos h2]
      obtain ⟨d, hd⟩ : ∃ d, c - a = d + 1 := ⟨c - a - 1, by omega⟩
      have : c - (a + 1) = d := by omega
      rw [hd, this]; simp
    · rw [if_neg h1]
      by_cases h2 : c = a
      · subst h2; simp
      · rw [if_neg h2, if_neg (by simp only [List.length_cons]; omega)]

theorem Memory.getBytes_length (m : List Host.Cell) (a n : Nat) : (Memory.getBytes m a n).length = n := by
  induction n generalizing a with
  | zero => rfl
  | succ n ih => simp [Memory.getBytes, ih]

/-- The `k`-th byte of a read of `n` bytes. -/
theorem Memory.getBytes_getD (m : List Host.Cell) (a n k : Nat) (h : k < n) :
    (Memory.getBytes m a n).getD k 0 = Memory.get m (a + k) := by
  induction n generalizing a k with
  | zero => omega
  | succ n ih =>
    cases k with
    | zero => simp [Memory.getBytes]
    | succ k =>
      have := ih (a + 1) k (by omega)
      rw [Memory.getBytes, List.getD_cons_succ, this]
      congr 1; omega

/-! ## The canonical form -/

theorem Memory.wfFrom_cons (lo k : Nat) (b : Byte) (m : List Host.Cell) :
    Memory.wfFrom lo ((k, b) :: m) = true ↔
      lo ≤ k ∧ k < 4096 ∧ b ≠ Memory.resetByte k ∧ Memory.wfFrom (k + 1) m = true := by
  simp only [Memory.wfFrom, Bool.and_eq_true, decide_eq_true_eq, bne_iff_ne, and_assoc]
  rfl

theorem Memory.wfFrom_mono {lo lo' : Nat} (h : lo' ≤ lo) {m : List Host.Cell} (hm : Memory.wfFrom lo m = true) :
    Memory.wfFrom lo' m = true := by
  cases m with
  | nil => rfl
  | cons e m =>
    obtain ⟨k, b⟩ := e
    rw [Memory.wfFrom_cons] at hm ⊢
    exact ⟨by omega, hm.2⟩

theorem Memory.wfFrom_put {lo a : Nat} {b : Byte} (h : lo ≤ a) (ha : a < 4096) (hb : b ≠ Memory.resetByte a)
    {m : List Host.Cell} (hm : Memory.wfFrom lo m = true) : Memory.wfFrom lo (Memory.put m a b) = true := by
  induction m generalizing lo with
  | nil => rw [Memory.put, Memory.wfFrom_cons]; exact ⟨h, ha, hb, rfl⟩
  | cons e m ih =>
    obtain ⟨k, d⟩ := e
    rw [Memory.wfFrom_cons] at hm
    simp only [Memory.put]
    split
    · rw [Memory.wfFrom_cons, Memory.wfFrom_cons]
      exact ⟨h, ha, hb, by omega, hm.2.1, hm.2.2⟩
    · split
      · subst k; rw [Memory.wfFrom_cons]; exact ⟨h, ha, hb, hm.2.2.2⟩
      · rw [Memory.wfFrom_cons]
        exact ⟨hm.1, hm.2.1, hm.2.2.1, ih (by omega) hm.2.2.2⟩

theorem Memory.wfFrom_erase {lo : Nat} (a : Nat) {m : List Host.Cell} (hm : Memory.wfFrom lo m = true) :
    Memory.wfFrom lo (m.filter (fun e => e.1 != a)) = true := by
  induction m generalizing lo with
  | nil => rfl
  | cons e m ih =>
    obtain ⟨k, d⟩ := e
    rw [Memory.wfFrom_cons] at hm
    by_cases hk : k = a
    · subst k; simpa using ih (Memory.wfFrom_mono (by omega) hm.2.2.2)
    · rw [List.filter_cons_of_pos (by simpa using hk), Memory.wfFrom_cons]
      exact ⟨hm.1, hm.2.1, hm.2.2.1, ih hm.2.2.2⟩

/-- A write inside the address space keeps the canonical form. -/
theorem Memory.wf_set {m : List Host.Cell} {a : Nat} (b : Byte) (ha : a < 4096) (hm : Memory.wf m = true) :
    Memory.wf (Memory.set m a b) = true := by
  unfold Memory.wf Memory.set at *
  split
  · exact Memory.wfFrom_erase a hm
  · exact Memory.wfFrom_put (by omega) ha (by assumption) hm

/-- A store inside the address space keeps the canonical form. -/
theorem Memory.wf_setBytes {m : List Host.Cell} {a : Nat} (bs : List Byte) (ha : bs = [] ∨ a + bs.length ≤ 4096)
    (hm : Memory.wf m = true) : Memory.wf (Memory.setBytes m a bs) = true := by
  induction bs generalizing m a with
  | nil => exact hm
  | cons b bs ih =>
    have h : a + bs.length + 1 ≤ 4096 := by simpa [Nat.add_assoc] using ha
    exact ih (by right; omega) (Memory.wf_set b (by omega) hm)

theorem Memory.lookup_none_of_lt {lo a : Nat} (h : a < lo) {m : List Host.Cell} (hm : Memory.wfFrom lo m = true) :
    Memory.lookup m a = none := by
  induction m generalizing lo with
  | nil => rfl
  | cons e m ih =>
    obtain ⟨k, d⟩ := e
    rw [Memory.wfFrom_cons] at hm
    rw [Memory.lookup, if_neg (by omega)]
    exact ih (by omega) hm.2.2.2

theorem Memory.lookup_ne_reset {lo a : Nat} {b : Byte} {m : List Host.Cell} (hm : Memory.wfFrom lo m = true)
    (h : Memory.lookup m a = some b) : b ≠ Memory.resetByte a := by
  induction m generalizing lo with
  | nil => simp [Memory.lookup] at h
  | cons e m ih =>
    obtain ⟨k, d⟩ := e
    rw [Memory.wfFrom_cons] at hm
    by_cases hk : k = a
    · subst k; simp [Memory.lookup] at h; exact h ▸ hm.2.2.1
    · exact ih hm.2.2.2 (by simpa [Memory.lookup, hk] using h)

/-- In canonical form the listed entries are determined by what memory reads as. -/
theorem Memory.lookup_of_get {m : List Host.Cell} (hm : Memory.wf m = true) (a : Nat) :
    Memory.lookup m a = if Memory.get m a = Memory.resetByte a then none else some (Memory.get m a) := by
  unfold Memory.get
  cases h : Memory.lookup m a with
  | none => simp
  | some b => simp [Memory.lookup_ne_reset hm h]

theorem Memory.eq_of_lookup {lo : Nat} {m m' : List Host.Cell} (hm : Memory.wfFrom lo m = true)
    (hm' : Memory.wfFrom lo m' = true) (h : ∀ a, Memory.lookup m a = Memory.lookup m' a) : m = m' := by
  induction m generalizing lo m' with
  | nil =>
    cases m' with
    | nil => rfl
    | cons e m' =>
      obtain ⟨k, d⟩ := e
      simpa [Memory.lookup] using h k
  | cons e m ih =>
    obtain ⟨k, d⟩ := e
    cases m' with
    | nil => simpa [Memory.lookup] using h k
    | cons e' m' =>
      obtain ⟨k', d'⟩ := e'
      rw [Memory.wfFrom_cons] at hm hm'
      have hk : k = k' := by
        rcases Nat.lt_trichotomy k k' with hlt | heq | hgt
        · have := h k
          rw [Memory.lookup, if_pos rfl, Memory.lookup, if_neg (by omega),
            Memory.lookup_none_of_lt (by omega) hm'.2.2.2] at this
          simp at this
        · exact heq
        · have := h k'
          rw [Memory.lookup, if_neg (by omega), Memory.lookup_none_of_lt (by omega) hm.2.2.2,
            Memory.lookup, if_pos rfl] at this
          simp at this
      subst hk
      have hd : d = d' := by simpa [Memory.lookup] using h k
      subst hd
      have htail : m = m' := by
        refine ih hm.2.2.2 hm'.2.2.2 fun a => ?_
        by_cases ha : k = a
        · subst ha
          rw [Memory.lookup_none_of_lt (by omega) hm.2.2.2, Memory.lookup_none_of_lt (by omega) hm'.2.2.2]
        · simpa [Memory.lookup, ha] using h a
      rw [htail]

end Sys2Proof.Machine
end

