-- ==== Sys2Proof/Laws/State.lean ====
section
/-! SUPPORT. One lemma per field per update of the state: what each named update writes and what it leaves. -/

namespace Sys2Proof.Machine

section setV

@[simp] theorem State.setV_v (s : State) (x : Reg) (b : Byte) : (s.setV x b).v = s.v.set x b := rfl
@[simp] theorem State.setV_i (s : State) (x : Reg) (b : Byte) : (s.setV x b).i = s.i := rfl
@[simp] theorem State.setV_pc (s : State) (x : Reg) (b : Byte) : (s.setV x b).pc = s.pc := rfl
@[simp] theorem State.setV_stack (s : State) (x : Reg) (b : Byte) : (s.setV x b).stack = s.stack := rfl
@[simp] theorem State.setV_sp (s : State) (x : Reg) (b : Byte) : (s.setV x b).sp = s.sp := rfl
@[simp] theorem State.setV_dt (s : State) (x : Reg) (b : Byte) : (s.setV x b).dt = s.dt := rfl
@[simp] theorem State.setV_st (s : State) (x : Reg) (b : Byte) : (s.setV x b).st = s.st := rfl
@[simp] theorem State.setV_run (s : State) (x : Reg) (b : Byte) : (s.setV x b).run = s.run := rfl
@[simp] theorem State.setV_fb (s : State) (x : Reg) (b : Byte) : (s.setV x b).fb = s.fb := rfl
@[simp] theorem State.setV_keys (s : State) (x : Reg) (b : Byte) : (s.setV x b).keys = s.keys := rfl
@[simp] theorem State.setV_mem (s : State) (x : Reg) (b : Byte) : (s.setV x b).mem = s.mem := rfl
@[simp] theorem State.setV_loadPort (s : State) (x : Reg) (b : Byte) : (s.setV x b).loadPort = s.loadPort := rfl
@[simp] theorem State.setV_inbox (s : State) (x : Reg) (b : Byte) : (s.setV x b).inbox = s.inbox := rfl
@[simp] theorem State.setV_randIn (s : State) (x : Reg) (b : Byte) : (s.setV x b).randIn = s.randIn := rfl
@[simp] theorem State.setV_moves (s : State) (x : Reg) (b : Byte) : (s.setV x b).moves = s.moves := rfl
@[simp] theorem State.setV_draws (s : State) (x : Reg) (b : Byte) : (s.setV x b).draws = s.draws := rfl

end setV

section setI

@[simp] theorem State.setI_v (s : State) (a : Half) : (s.setI a).v = s.v := rfl
@[simp] theorem State.setI_i (s : State) (a : Half) : (s.setI a).i = a := rfl
@[simp] theorem State.setI_pc (s : State) (a : Half) : (s.setI a).pc = s.pc := rfl
@[simp] theorem State.setI_stack (s : State) (a : Half) : (s.setI a).stack = s.stack := rfl
@[simp] theorem State.setI_sp (s : State) (a : Half) : (s.setI a).sp = s.sp := rfl
@[simp] theorem State.setI_dt (s : State) (a : Half) : (s.setI a).dt = s.dt := rfl
@[simp] theorem State.setI_st (s : State) (a : Half) : (s.setI a).st = s.st := rfl
@[simp] theorem State.setI_run (s : State) (a : Half) : (s.setI a).run = s.run := rfl
@[simp] theorem State.setI_fb (s : State) (a : Half) : (s.setI a).fb = s.fb := rfl
@[simp] theorem State.setI_keys (s : State) (a : Half) : (s.setI a).keys = s.keys := rfl
@[simp] theorem State.setI_mem (s : State) (a : Half) : (s.setI a).mem = s.mem := rfl
@[simp] theorem State.setI_loadPort (s : State) (a : Half) : (s.setI a).loadPort = s.loadPort := rfl
@[simp] theorem State.setI_inbox (s : State) (a : Half) : (s.setI a).inbox = s.inbox := rfl
@[simp] theorem State.setI_randIn (s : State) (a : Half) : (s.setI a).randIn = s.randIn := rfl
@[simp] theorem State.setI_moves (s : State) (a : Half) : (s.setI a).moves = s.moves := rfl
@[simp] theorem State.setI_draws (s : State) (a : Half) : (s.setI a).draws = s.draws := rfl

end setI

section setPc

@[simp] theorem State.setPc_v (s : State) (a : Half) : (s.setPc a).v = s.v := rfl
@[simp] theorem State.setPc_i (s : State) (a : Half) : (s.setPc a).i = s.i := rfl
@[simp] theorem State.setPc_pc (s : State) (a : Half) : (s.setPc a).pc = a := rfl
@[simp] theorem State.setPc_stack (s : State) (a : Half) : (s.setPc a).stack = s.stack := rfl
@[simp] theorem State.setPc_sp (s : State) (a : Half) : (s.setPc a).sp = s.sp := rfl
@[simp] theorem State.setPc_dt (s : State) (a : Half) : (s.setPc a).dt = s.dt := rfl
@[simp] theorem State.setPc_st (s : State) (a : Half) : (s.setPc a).st = s.st := rfl
@[simp] theorem State.setPc_run (s : State) (a : Half) : (s.setPc a).run = s.run := rfl
@[simp] theorem State.setPc_fb (s : State) (a : Half) : (s.setPc a).fb = s.fb := rfl
@[simp] theorem State.setPc_keys (s : State) (a : Half) : (s.setPc a).keys = s.keys := rfl
@[simp] theorem State.setPc_mem (s : State) (a : Half) : (s.setPc a).mem = s.mem := rfl
@[simp] theorem State.setPc_loadPort (s : State) (a : Half) : (s.setPc a).loadPort = s.loadPort := rfl
@[simp] theorem State.setPc_inbox (s : State) (a : Half) : (s.setPc a).inbox = s.inbox := rfl
@[simp] theorem State.setPc_randIn (s : State) (a : Half) : (s.setPc a).randIn = s.randIn := rfl
@[simp] theorem State.setPc_moves (s : State) (a : Half) : (s.setPc a).moves = s.moves := rfl
@[simp] theorem State.setPc_draws (s : State) (a : Half) : (s.setPc a).draws = s.draws := rfl

end setPc

section setDt

@[simp] theorem State.setDt_v (s : State) (b : Byte) : (s.setDt b).v = s.v := rfl
@[simp] theorem State.setDt_i (s : State) (b : Byte) : (s.setDt b).i = s.i := rfl
@[simp] theorem State.setDt_pc (s : State) (b : Byte) : (s.setDt b).pc = s.pc := rfl
@[simp] theorem State.setDt_stack (s : State) (b : Byte) : (s.setDt b).stack = s.stack := rfl
@[simp] theorem State.setDt_sp (s : State) (b : Byte) : (s.setDt b).sp = s.sp := rfl
@[simp] theorem State.setDt_dt (s : State) (b : Byte) : (s.setDt b).dt = b := rfl
@[simp] theorem State.setDt_st (s : State) (b : Byte) : (s.setDt b).st = s.st := rfl
@[simp] theorem State.setDt_run (s : State) (b : Byte) : (s.setDt b).run = s.run := rfl
@[simp] theorem State.setDt_fb (s : State) (b : Byte) : (s.setDt b).fb = s.fb := rfl
@[simp] theorem State.setDt_keys (s : State) (b : Byte) : (s.setDt b).keys = s.keys := rfl
@[simp] theorem State.setDt_mem (s : State) (b : Byte) : (s.setDt b).mem = s.mem := rfl
@[simp] theorem State.setDt_loadPort (s : State) (b : Byte) : (s.setDt b).loadPort = s.loadPort := rfl
@[simp] theorem State.setDt_inbox (s : State) (b : Byte) : (s.setDt b).inbox = s.inbox := rfl
@[simp] theorem State.setDt_randIn (s : State) (b : Byte) : (s.setDt b).randIn = s.randIn := rfl
@[simp] theorem State.setDt_moves (s : State) (b : Byte) : (s.setDt b).moves = s.moves := rfl
@[simp] theorem State.setDt_draws (s : State) (b : Byte) : (s.setDt b).draws = s.draws := rfl

end setDt

section setSt

@[simp] theorem State.setSt_v (s : State) (b : Byte) : (s.setSt b).v = s.v := rfl
@[simp] theorem State.setSt_i (s : State) (b : Byte) : (s.setSt b).i = s.i := rfl
@[simp] theorem State.setSt_pc (s : State) (b : Byte) : (s.setSt b).pc = s.pc := rfl
@[simp] theorem State.setSt_stack (s : State) (b : Byte) : (s.setSt b).stack = s.stack := rfl
@[simp] theorem State.setSt_sp (s : State) (b : Byte) : (s.setSt b).sp = s.sp := rfl
@[simp] theorem State.setSt_dt (s : State) (b : Byte) : (s.setSt b).dt = s.dt := rfl
@[simp] theorem State.setSt_st (s : State) (b : Byte) : (s.setSt b).st = b := rfl
@[simp] theorem State.setSt_run (s : State) (b : Byte) : (s.setSt b).run = s.run := rfl
@[simp] theorem State.setSt_fb (s : State) (b : Byte) : (s.setSt b).fb = s.fb := rfl
@[simp] theorem State.setSt_keys (s : State) (b : Byte) : (s.setSt b).keys = s.keys := rfl
@[simp] theorem State.setSt_mem (s : State) (b : Byte) : (s.setSt b).mem = s.mem := rfl
@[simp] theorem State.setSt_loadPort (s : State) (b : Byte) : (s.setSt b).loadPort = s.loadPort := rfl
@[simp] theorem State.setSt_inbox (s : State) (b : Byte) : (s.setSt b).inbox = s.inbox := rfl
@[simp] theorem State.setSt_randIn (s : State) (b : Byte) : (s.setSt b).randIn = s.randIn := rfl
@[simp] theorem State.setSt_moves (s : State) (b : Byte) : (s.setSt b).moves = s.moves := rfl
@[simp] theorem State.setSt_draws (s : State) (b : Byte) : (s.setSt b).draws = s.draws := rfl

end setSt

section setRun

@[simp] theorem State.setRun_v (s : State) (r : RunState) : (s.setRun r).v = s.v := rfl
@[simp] theorem State.setRun_i (s : State) (r : RunState) : (s.setRun r).i = s.i := rfl
@[simp] theorem State.setRun_pc (s : State) (r : RunState) : (s.setRun r).pc = s.pc := rfl
@[simp] theorem State.setRun_stack (s : State) (r : RunState) : (s.setRun r).stack = s.stack := rfl
@[simp] theorem State.setRun_sp (s : State) (r : RunState) : (s.setRun r).sp = s.sp := rfl
@[simp] theorem State.setRun_dt (s : State) (r : RunState) : (s.setRun r).dt = s.dt := rfl
@[simp] theorem State.setRun_st (s : State) (r : RunState) : (s.setRun r).st = s.st := rfl
@[simp] theorem State.setRun_run (s : State) (r : RunState) : (s.setRun r).run = r := rfl
@[simp] theorem State.setRun_fb (s : State) (r : RunState) : (s.setRun r).fb = s.fb := rfl
@[simp] theorem State.setRun_keys (s : State) (r : RunState) : (s.setRun r).keys = s.keys := rfl
@[simp] theorem State.setRun_mem (s : State) (r : RunState) : (s.setRun r).mem = s.mem := rfl
@[simp] theorem State.setRun_loadPort (s : State) (r : RunState) : (s.setRun r).loadPort = s.loadPort := rfl
@[simp] theorem State.setRun_inbox (s : State) (r : RunState) : (s.setRun r).inbox = s.inbox := rfl
@[simp] theorem State.setRun_randIn (s : State) (r : RunState) : (s.setRun r).randIn = s.randIn := rfl
@[simp] theorem State.setRun_moves (s : State) (r : RunState) : (s.setRun r).moves = s.moves := rfl
@[simp] theorem State.setRun_draws (s : State) (r : RunState) : (s.setRun r).draws = s.draws := rfl

end setRun

section setFb

@[simp] theorem State.setFb_v (s : State) (f : Vector (BitVec 64) 32) : (s.setFb f).v = s.v := rfl
@[simp] theorem State.setFb_i (s : State) (f : Vector (BitVec 64) 32) : (s.setFb f).i = s.i := rfl
@[simp] theorem State.setFb_pc (s : State) (f : Vector (BitVec 64) 32) : (s.setFb f).pc = s.pc := rfl
@[simp] theorem State.setFb_stack (s : State) (f : Vector (BitVec 64) 32) : (s.setFb f).stack = s.stack := rfl
@[simp] theorem State.setFb_sp (s : State) (f : Vector (BitVec 64) 32) : (s.setFb f).sp = s.sp := rfl
@[simp] theorem State.setFb_dt (s : State) (f : Vector (BitVec 64) 32) : (s.setFb f).dt = s.dt := rfl
@[simp] theorem State.setFb_st (s : State) (f : Vector (BitVec 64) 32) : (s.setFb f).st = s.st := rfl
@[simp] theorem State.setFb_run (s : State) (f : Vector (BitVec 64) 32) : (s.setFb f).run = s.run := rfl
@[simp] theorem State.setFb_fb (s : State) (f : Vector (BitVec 64) 32) : (s.setFb f).fb = f := rfl
@[simp] theorem State.setFb_keys (s : State) (f : Vector (BitVec 64) 32) : (s.setFb f).keys = s.keys := rfl
@[simp] theorem State.setFb_mem (s : State) (f : Vector (BitVec 64) 32) : (s.setFb f).mem = s.mem := rfl
@[simp] theorem State.setFb_loadPort (s : State) (f : Vector (BitVec 64) 32) : (s.setFb f).loadPort = s.loadPort := rfl
@[simp] theorem State.setFb_inbox (s : State) (f : Vector (BitVec 64) 32) : (s.setFb f).inbox = s.inbox := rfl
@[simp] theorem State.setFb_randIn (s : State) (f : Vector (BitVec 64) 32) : (s.setFb f).randIn = s.randIn := rfl
@[simp] theorem State.setFb_moves (s : State) (f : Vector (BitVec 64) 32) : (s.setFb f).moves = s.moves := rfl
@[simp] theorem State.setFb_draws (s : State) (f : Vector (BitVec 64) 32) : (s.setFb f).draws = s.draws := rfl

end setFb

section setKeys

@[simp] theorem State.setKeys_v (s : State) (k : BitVec 16) : (s.setKeys k).v = s.v := rfl
@[simp] theorem State.setKeys_i (s : State) (k : BitVec 16) : (s.setKeys k).i = s.i := rfl
@[simp] theorem State.setKeys_pc (s : State) (k : BitVec 16) : (s.setKeys k).pc = s.pc := rfl
@[simp] theorem State.setKeys_stack (s : State) (k : BitVec 16) : (s.setKeys k).stack = s.stack := rfl
@[simp] theorem State.setKeys_sp (s : State) (k : BitVec 16) : (s.setKeys k).sp = s.sp := rfl
@[simp] theorem State.setKeys_dt (s : State) (k : BitVec 16) : (s.setKeys k).dt = s.dt := rfl
@[simp] theorem State.setKeys_st (s : State) (k : BitVec 16) : (s.setKeys k).st = s.st := rfl
@[simp] theorem State.setKeys_run (s : State) (k : BitVec 16) : (s.setKeys k).run = s.run := rfl
@[simp] theorem State.setKeys_fb (s : State) (k : BitVec 16) : (s.setKeys k).fb = s.fb := rfl
@[simp] theorem State.setKeys_keys (s : State) (k : BitVec 16) : (s.setKeys k).keys = k := rfl
@[simp] theorem State.setKeys_mem (s : State) (k : BitVec 16) : (s.setKeys k).mem = s.mem := rfl
@[simp] theorem State.setKeys_loadPort (s : State) (k : BitVec 16) : (s.setKeys k).loadPort = s.loadPort := rfl
@[simp] theorem State.setKeys_inbox (s : State) (k : BitVec 16) : (s.setKeys k).inbox = s.inbox := rfl
@[simp] theorem State.setKeys_randIn (s : State) (k : BitVec 16) : (s.setKeys k).randIn = s.randIn := rfl
@[simp] theorem State.setKeys_moves (s : State) (k : BitVec 16) : (s.setKeys k).moves = s.moves := rfl
@[simp] theorem State.setKeys_draws (s : State) (k : BitVec 16) : (s.setKeys k).draws = s.draws := rfl

end setKeys

section setMem

@[simp] theorem State.setMem_v (s : State) (m : List Host.Cell) : (s.setMem m).v = s.v := rfl
@[simp] theorem State.setMem_i (s : State) (m : List Host.Cell) : (s.setMem m).i = s.i := rfl
@[simp] theorem State.setMem_pc (s : State) (m : List Host.Cell) : (s.setMem m).pc = s.pc := rfl
@[simp] theorem State.setMem_stack (s : State) (m : List Host.Cell) : (s.setMem m).stack = s.stack := rfl
@[simp] theorem State.setMem_sp (s : State) (m : List Host.Cell) : (s.setMem m).sp = s.sp := rfl
@[simp] theorem State.setMem_dt (s : State) (m : List Host.Cell) : (s.setMem m).dt = s.dt := rfl
@[simp] theorem State.setMem_st (s : State) (m : List Host.Cell) : (s.setMem m).st = s.st := rfl
@[simp] theorem State.setMem_run (s : State) (m : List Host.Cell) : (s.setMem m).run = s.run := rfl
@[simp] theorem State.setMem_fb (s : State) (m : List Host.Cell) : (s.setMem m).fb = s.fb := rfl
@[simp] theorem State.setMem_keys (s : State) (m : List Host.Cell) : (s.setMem m).keys = s.keys := rfl
@[simp] theorem State.setMem_mem (s : State) (m : List Host.Cell) : (s.setMem m).mem = m := rfl
@[simp] theorem State.setMem_loadPort (s : State) (m : List Host.Cell) : (s.setMem m).loadPort = s.loadPort := rfl
@[simp] theorem State.setMem_inbox (s : State) (m : List Host.Cell) : (s.setMem m).inbox = s.inbox := rfl
@[simp] theorem State.setMem_randIn (s : State) (m : List Host.Cell) : (s.setMem m).randIn = s.randIn := rfl
@[simp] theorem State.setMem_moves (s : State) (m : List Host.Cell) : (s.setMem m).moves = s.moves := rfl
@[simp] theorem State.setMem_draws (s : State) (m : List Host.Cell) : (s.setMem m).draws = s.draws := rfl

end setMem

section enterFault

@[simp] theorem enterFault_v (c : Cause) (p a : Half) (s : State) : (enterFault c p a s).v = s.v := rfl
@[simp] theorem enterFault_i (c : Cause) (p a : Half) (s : State) : (enterFault c p a s).i = s.i := rfl
@[simp] theorem enterFault_pc (c : Cause) (p a : Half) (s : State) : (enterFault c p a s).pc = p := rfl
@[simp] theorem enterFault_stack (c : Cause) (p a : Half) (s : State) : (enterFault c p a s).stack = s.stack := rfl
@[simp] theorem enterFault_sp (c : Cause) (p a : Half) (s : State) : (enterFault c p a s).sp = s.sp := rfl
@[simp] theorem enterFault_dt (c : Cause) (p a : Half) (s : State) : (enterFault c p a s).dt = s.dt := rfl
@[simp] theorem enterFault_st (c : Cause) (p a : Half) (s : State) : (enterFault c p a s).st = s.st := rfl
@[simp] theorem enterFault_run (c : Cause) (p a : Half) (s : State) : (enterFault c p a s).run = .halted c p a := rfl
@[simp] theorem enterFault_fb (c : Cause) (p a : Half) (s : State) : (enterFault c p a s).fb = s.fb := rfl
@[simp] theorem enterFault_keys (c : Cause) (p a : Half) (s : State) : (enterFault c p a s).keys = s.keys := rfl
@[simp] theorem enterFault_mem (c : Cause) (p a : Half) (s : State) : (enterFault c p a s).mem = s.mem := rfl
@[simp] theorem enterFault_loadPort (c : Cause) (p a : Half) (s : State) : (enterFault c p a s).loadPort = s.loadPort := rfl
@[simp] theorem enterFault_inbox (c : Cause) (p a : Half) (s : State) : (enterFault c p a s).inbox = s.inbox := rfl
@[simp] theorem enterFault_randIn (c : Cause) (p a : Half) (s : State) : (enterFault c p a s).randIn = s.randIn := rfl
@[simp] theorem enterFault_moves (c : Cause) (p a : Half) (s : State) : (enterFault c p a s).moves = s.moves := rfl
@[simp] theorem enterFault_draws (c : Cause) (p a : Half) (s : State) : (enterFault c p a s).draws = s.draws := rfl

end enterFault

section raise

@[simp] theorem raise_v (c : Cause) (a : Half) (s : State) : (raise c a s).v = s.v := rfl
@[simp] theorem raise_i (c : Cause) (a : Half) (s : State) : (raise c a s).i = s.i := rfl
@[simp] theorem raise_pc (c : Cause) (a : Half) (s : State) : (raise c a s).pc = s.pc - 2 := rfl
@[simp] theorem raise_stack (c : Cause) (a : Half) (s : State) : (raise c a s).stack = s.stack := rfl
@[simp] theorem raise_sp (c : Cause) (a : Half) (s : State) : (raise c a s).sp = s.sp := rfl
@[simp] theorem raise_dt (c : Cause) (a : Half) (s : State) : (raise c a s).dt = s.dt := rfl
@[simp] theorem raise_st (c : Cause) (a : Half) (s : State) : (raise c a s).st = s.st := rfl
@[simp] theorem raise_run (c : Cause) (a : Half) (s : State) : (raise c a s).run = .halted c (s.pc - 2) a := rfl
@[simp] theorem raise_fb (c : Cause) (a : Half) (s : State) : (raise c a s).fb = s.fb := rfl
@[simp] theorem raise_keys (c : Cause) (a : Half) (s : State) : (raise c a s).keys = s.keys := rfl
@[simp] theorem raise_mem (c : Cause) (a : Half) (s : State) : (raise c a s).mem = s.mem := rfl
@[simp] theorem raise_loadPort (c : Cause) (a : Half) (s : State) : (raise c a s).loadPort = s.loadPort := rfl
@[simp] theorem raise_inbox (c : Cause) (a : Half) (s : State) : (raise c a s).inbox = s.inbox := rfl
@[simp] theorem raise_randIn (c : Cause) (a : Half) (s : State) : (raise c a s).randIn = s.randIn := rfl
@[simp] theorem raise_moves (c : Cause) (a : Half) (s : State) : (raise c a s).moves = s.moves := rfl
@[simp] theorem raise_draws (c : Cause) (a : Half) (s : State) : (raise c a s).draws = s.draws := rfl

end raise

section drawn

@[simp] theorem State.drawn_v (s : State) : s.drawn.v = s.v := rfl
@[simp] theorem State.drawn_i (s : State) : s.drawn.i = s.i := rfl
@[simp] theorem State.drawn_pc (s : State) : s.drawn.pc = s.pc := rfl
@[simp] theorem State.drawn_stack (s : State) : s.drawn.stack = s.stack := rfl
@[simp] theorem State.drawn_sp (s : State) : s.drawn.sp = s.sp := rfl
@[simp] theorem State.drawn_dt (s : State) : s.drawn.dt = s.dt := rfl
@[simp] theorem State.drawn_st (s : State) : s.drawn.st = s.st := rfl
@[simp] theorem State.drawn_run (s : State) : s.drawn.run = s.run := rfl
@[simp] theorem State.drawn_fb (s : State) : s.drawn.fb = s.fb := rfl
@[simp] theorem State.drawn_keys (s : State) : s.drawn.keys = s.keys := rfl
@[simp] theorem State.drawn_mem (s : State) : s.drawn.mem = s.mem := rfl
@[simp] theorem State.drawn_loadPort (s : State) : s.drawn.loadPort = s.loadPort := rfl
@[simp] theorem State.drawn_inbox (s : State) : s.drawn.inbox = s.inbox := rfl
@[simp] theorem State.drawn_randIn (s : State) : s.drawn.randIn = s.randIn.tail := rfl
@[simp] theorem State.drawn_moves (s : State) : s.drawn.moves = s.moves := rfl
@[simp] theorem State.drawn_draws (s : State) : s.drawn.draws = s.draws + 1 := rfl

end drawn

section setResultFlag

@[simp] theorem State.setResultFlag_v (s : State) (x : Reg) (b : Byte) (c : Bool) : (s.setResultFlag x b c).v = (s.v.set x b).set vf (flagByte c) := rfl
@[simp] theorem State.setResultFlag_i (s : State) (x : Reg) (b : Byte) (c : Bool) : (s.setResultFlag x b c).i = s.i := rfl
@[simp] theorem State.setResultFlag_pc (s : State) (x : Reg) (b : Byte) (c : Bool) : (s.setResultFlag x b c).pc = s.pc := rfl
@[simp] theorem State.setResultFlag_stack (s : State) (x : Reg) (b : Byte) (c : Bool) : (s.setResultFlag x b c).stack = s.stack := rfl
@[simp] theorem State.setResultFlag_sp (s : State) (x : Reg) (b : Byte) (c : Bool) : (s.setResultFlag x b c).sp = s.sp := rfl
@[simp] theorem State.setResultFlag_dt (s : State) (x : Reg) (b : Byte) (c : Bool) : (s.setResultFlag x b c).dt = s.dt := rfl
@[simp] theorem State.setResultFlag_st (s : State) (x : Reg) (b : Byte) (c : Bool) : (s.setResultFlag x b c).st = s.st := rfl
@[simp] theorem State.setResultFlag_run (s : State) (x : Reg) (b : Byte) (c : Bool) : (s.setResultFlag x b c).run = s.run := rfl
@[simp] theorem State.setResultFlag_fb (s : State) (x : Reg) (b : Byte) (c : Bool) : (s.setResultFlag x b c).fb = s.fb := rfl
@[simp] theorem State.setResultFlag_keys (s : State) (x : Reg) (b : Byte) (c : Bool) : (s.setResultFlag x b c).keys = s.keys := rfl
@[simp] theorem State.setResultFlag_mem (s : State) (x : Reg) (b : Byte) (c : Bool) : (s.setResultFlag x b c).mem = s.mem := rfl
@[simp] theorem State.setResultFlag_loadPort (s : State) (x : Reg) (b : Byte) (c : Bool) : (s.setResultFlag x b c).loadPort = s.loadPort := rfl
@[simp] theorem State.setResultFlag_inbox (s : State) (x : Reg) (b : Byte) (c : Bool) : (s.setResultFlag x b c).inbox = s.inbox := rfl
@[simp] theorem State.setResultFlag_randIn (s : State) (x : Reg) (b : Byte) (c : Bool) : (s.setResultFlag x b c).randIn = s.randIn := rfl
@[simp] theorem State.setResultFlag_moves (s : State) (x : Reg) (b : Byte) (c : Bool) : (s.setResultFlag x b c).moves = s.moves := rfl
@[simp] theorem State.setResultFlag_draws (s : State) (x : Reg) (b : Byte) (c : Bool) : (s.setResultFlag x b c).draws = s.draws := rfl

end setResultFlag

section storeAtI

@[simp] theorem State.storeAtI_v (s : State) (bs : List Byte) : (s.storeAtI bs).v = s.v := rfl
@[simp] theorem State.storeAtI_i (s : State) (bs : List Byte) : (s.storeAtI bs).i = s.i := rfl
@[simp] theorem State.storeAtI_pc (s : State) (bs : List Byte) : (s.storeAtI bs).pc = s.pc := rfl
@[simp] theorem State.storeAtI_stack (s : State) (bs : List Byte) : (s.storeAtI bs).stack = s.stack := rfl
@[simp] theorem State.storeAtI_sp (s : State) (bs : List Byte) : (s.storeAtI bs).sp = s.sp := rfl
@[simp] theorem State.storeAtI_dt (s : State) (bs : List Byte) : (s.storeAtI bs).dt = s.dt := rfl
@[simp] theorem State.storeAtI_st (s : State) (bs : List Byte) : (s.storeAtI bs).st = s.st := rfl
@[simp] theorem State.storeAtI_run (s : State) (bs : List Byte) : (s.storeAtI bs).run = s.run := rfl
@[simp] theorem State.storeAtI_fb (s : State) (bs : List Byte) : (s.storeAtI bs).fb = s.fb := rfl
@[simp] theorem State.storeAtI_keys (s : State) (bs : List Byte) : (s.storeAtI bs).keys = s.keys := rfl
@[simp] theorem State.storeAtI_mem (s : State) (bs : List Byte) : (s.storeAtI bs).mem = Memory.setBytes s.mem s.i.toNat bs := rfl
@[simp] theorem State.storeAtI_loadPort (s : State) (bs : List Byte) : (s.storeAtI bs).loadPort = s.loadPort := rfl
@[simp] theorem State.storeAtI_inbox (s : State) (bs : List Byte) : (s.storeAtI bs).inbox = s.inbox := rfl
@[simp] theorem State.storeAtI_randIn (s : State) (bs : List Byte) : (s.storeAtI bs).randIn = s.randIn := rfl
@[simp] theorem State.storeAtI_moves (s : State) (bs : List Byte) : (s.storeAtI bs).moves = s.moves := rfl
@[simp] theorem State.storeAtI_draws (s : State) (bs : List Byte) : (s.storeAtI bs).draws = s.draws := rfl

end storeAtI

section takeMove

@[simp] theorem takeMove_v (s : State) : (takeMove s).v = s.v := rfl
@[simp] theorem takeMove_i (s : State) : (takeMove s).i = s.i := rfl
@[simp] theorem takeMove_pc (s : State) : (takeMove s).pc = s.pc := rfl
@[simp] theorem takeMove_stack (s : State) : (takeMove s).stack = s.stack := rfl
@[simp] theorem takeMove_sp (s : State) : (takeMove s).sp = s.sp := rfl
@[simp] theorem takeMove_dt (s : State) : (takeMove s).dt = s.dt := rfl
@[simp] theorem takeMove_st (s : State) : (takeMove s).st = s.st := rfl
@[simp] theorem takeMove_run (s : State) : (takeMove s).run = s.run := rfl
@[simp] theorem takeMove_fb (s : State) : (takeMove s).fb = s.fb := rfl
@[simp] theorem takeMove_keys (s : State) : (takeMove s).keys = s.keys := rfl
@[simp] theorem takeMove_mem (s : State) : (takeMove s).mem = s.mem := rfl
@[simp] theorem takeMove_loadPort (s : State) : (takeMove s).loadPort = s.loadPort := rfl
@[simp] theorem takeMove_inbox (s : State) : (takeMove s).inbox = s.inbox.tail := rfl
@[simp] theorem takeMove_randIn (s : State) : (takeMove s).randIn = s.randIn := rfl
@[simp] theorem takeMove_moves (s : State) : (takeMove s).moves = s.moves + 1 := rfl
@[simp] theorem takeMove_draws (s : State) : (takeMove s).draws = s.draws := rfl

end takeMove

section timerDecay

@[simp] theorem timerDecay_v (s : State) : (timerDecay s).v = s.v := rfl
@[simp] theorem timerDecay_i (s : State) : (timerDecay s).i = s.i := rfl
@[simp] theorem timerDecay_pc (s : State) : (timerDecay s).pc = s.pc := rfl
@[simp] theorem timerDecay_stack (s : State) : (timerDecay s).stack = s.stack := rfl
@[simp] theorem timerDecay_sp (s : State) : (timerDecay s).sp = s.sp := rfl
@[simp] theorem timerDecay_dt (s : State) : (timerDecay s).dt = decay s.dt := rfl
@[simp] theorem timerDecay_st (s : State) : (timerDecay s).st = decay s.st := rfl
@[simp] theorem timerDecay_run (s : State) : (timerDecay s).run = s.run := rfl
@[simp] theorem timerDecay_fb (s : State) : (timerDecay s).fb = s.fb := rfl
@[simp] theorem timerDecay_keys (s : State) : (timerDecay s).keys = s.keys := rfl
@[simp] theorem timerDecay_mem (s : State) : (timerDecay s).mem = s.mem := rfl
@[simp] theorem timerDecay_loadPort (s : State) : (timerDecay s).loadPort = s.loadPort := rfl
@[simp] theorem timerDecay_inbox (s : State) : (timerDecay s).inbox = s.inbox := rfl
@[simp] theorem timerDecay_randIn (s : State) : (timerDecay s).randIn = s.randIn := rfl
@[simp] theorem timerDecay_moves (s : State) : (timerDecay s).moves = s.moves := rfl
@[simp] theorem timerDecay_draws (s : State) : (timerDecay s).draws = s.draws := rfl

end timerDecay

section keyResolve

@[simp] theorem keyResolve_v (r : Reg) (k : Key) (s : State) : (keyResolve r k s).v = s.v.set r (BitVec.ofNat 8 k.val) := rfl
@[simp] theorem keyResolve_i (r : Reg) (k : Key) (s : State) : (keyResolve r k s).i = s.i := rfl
@[simp] theorem keyResolve_pc (r : Reg) (k : Key) (s : State) : (keyResolve r k s).pc = s.pc := rfl
@[simp] theorem keyResolve_stack (r : Reg) (k : Key) (s : State) : (keyResolve r k s).stack = s.stack := rfl
@[simp] theorem keyResolve_sp (r : Reg) (k : Key) (s : State) : (keyResolve r k s).sp = s.sp := rfl
@[simp] theorem keyResolve_dt (r : Reg) (k : Key) (s : State) : (keyResolve r k s).dt = s.dt := rfl
@[simp] theorem keyResolve_st (r : Reg) (k : Key) (s : State) : (keyResolve r k s).st = s.st := rfl
@[simp] theorem keyResolve_run (r : Reg) (k : Key) (s : State) : (keyResolve r k s).run = .running := rfl
@[simp] theorem keyResolve_fb (r : Reg) (k : Key) (s : State) : (keyResolve r k s).fb = s.fb := rfl
@[simp] theorem keyResolve_keys (r : Reg) (k : Key) (s : State) : (keyResolve r k s).keys = s.keys := rfl
@[simp] theorem keyResolve_mem (r : Reg) (k : Key) (s : State) : (keyResolve r k s).mem = s.mem := rfl
@[simp] theorem keyResolve_loadPort (r : Reg) (k : Key) (s : State) : (keyResolve r k s).loadPort = s.loadPort := rfl
@[simp] theorem keyResolve_inbox (r : Reg) (k : Key) (s : State) : (keyResolve r k s).inbox = s.inbox := rfl
@[simp] theorem keyResolve_randIn (r : Reg) (k : Key) (s : State) : (keyResolve r k s).randIn = s.randIn := rfl
@[simp] theorem keyResolve_moves (r : Reg) (k : Key) (s : State) : (keyResolve r k s).moves = s.moves := rfl
@[simp] theorem keyResolve_draws (r : Reg) (k : Key) (s : State) : (keyResolve r k s).draws = s.draws := rfl

end keyResolve

section press

@[simp] theorem press_v (k : Key) (s : State) : (press k s).v = s.v := rfl
@[simp] theorem press_i (k : Key) (s : State) : (press k s).i = s.i := rfl
@[simp] theorem press_pc (k : Key) (s : State) : (press k s).pc = s.pc := rfl
@[simp] theorem press_stack (k : Key) (s : State) : (press k s).stack = s.stack := rfl
@[simp] theorem press_sp (k : Key) (s : State) : (press k s).sp = s.sp := rfl
@[simp] theorem press_dt (k : Key) (s : State) : (press k s).dt = s.dt := rfl
@[simp] theorem press_st (k : Key) (s : State) : (press k s).st = s.st := rfl
@[simp] theorem press_run (k : Key) (s : State) : (press k s).run = s.run := rfl
@[simp] theorem press_fb (k : Key) (s : State) : (press k s).fb = s.fb := rfl
@[simp] theorem press_keys (k : Key) (s : State) : (press k s).keys = s.keys ||| BitVec.twoPow 16 k.val := rfl
@[simp] theorem press_mem (k : Key) (s : State) : (press k s).mem = s.mem := rfl
@[simp] theorem press_loadPort (k : Key) (s : State) : (press k s).loadPort = s.loadPort := rfl
@[simp] theorem press_inbox (k : Key) (s : State) : (press k s).inbox = s.inbox := rfl
@[simp] theorem press_randIn (k : Key) (s : State) : (press k s).randIn = s.randIn := rfl
@[simp] theorem press_moves (k : Key) (s : State) : (press k s).moves = s.moves := rfl
@[simp] theorem press_draws (k : Key) (s : State) : (press k s).draws = s.draws := rfl

end press

section release

@[simp] theorem release_v (k : Key) (s : State) : (release k s).v = s.v := rfl
@[simp] theorem release_i (k : Key) (s : State) : (release k s).i = s.i := rfl
@[simp] theorem release_pc (k : Key) (s : State) : (release k s).pc = s.pc := rfl
@[simp] theorem release_stack (k : Key) (s : State) : (release k s).stack = s.stack := rfl
@[simp] theorem release_sp (k : Key) (s : State) : (release k s).sp = s.sp := rfl
@[simp] theorem release_dt (k : Key) (s : State) : (release k s).dt = s.dt := rfl
@[simp] theorem release_st (k : Key) (s : State) : (release k s).st = s.st := rfl
@[simp] theorem release_run (k : Key) (s : State) : (release k s).run = s.run := rfl
@[simp] theorem release_fb (k : Key) (s : State) : (release k s).fb = s.fb := rfl
@[simp] theorem release_keys (k : Key) (s : State) : (release k s).keys = s.keys &&& ~~~ (BitVec.twoPow 16 k.val) := rfl
@[simp] theorem release_mem (k : Key) (s : State) : (release k s).mem = s.mem := rfl
@[simp] theorem release_loadPort (k : Key) (s : State) : (release k s).loadPort = s.loadPort := rfl
@[simp] theorem release_inbox (k : Key) (s : State) : (release k s).inbox = s.inbox := rfl
@[simp] theorem release_randIn (k : Key) (s : State) : (release k s).randIn = s.randIn := rfl
@[simp] theorem release_moves (k : Key) (s : State) : (release k s).moves = s.moves := rfl
@[simp] theorem release_draws (k : Key) (s : State) : (release k s).draws = s.draws := rfl

end release

section loadRegs

@[simp] theorem State.loadRegs_i (s : State) (x : Reg) (bs : List Byte) : (s.loadRegs x bs).i = s.i := rfl
@[simp] theorem State.loadRegs_pc (s : State) (x : Reg) (bs : List Byte) : (s.loadRegs x bs).pc = s.pc := rfl
@[simp] theorem State.loadRegs_stack (s : State) (x : Reg) (bs : List Byte) : (s.loadRegs x bs).stack = s.stack := rfl
@[simp] theorem State.loadRegs_sp (s : State) (x : Reg) (bs : List Byte) : (s.loadRegs x bs).sp = s.sp := rfl
@[simp] theorem State.loadRegs_dt (s : State) (x : Reg) (bs : List Byte) : (s.loadRegs x bs).dt = s.dt := rfl
@[simp] theorem State.loadRegs_st (s : State) (x : Reg) (bs : List Byte) : (s.loadRegs x bs).st = s.st := rfl
@[simp] theorem State.loadRegs_run (s : State) (x : Reg) (bs : List Byte) : (s.loadRegs x bs).run = s.run := rfl
@[simp] theorem State.loadRegs_fb (s : State) (x : Reg) (bs : List Byte) : (s.loadRegs x bs).fb = s.fb := rfl
@[simp] theorem State.loadRegs_keys (s : State) (x : Reg) (bs : List Byte) : (s.loadRegs x bs).keys = s.keys := rfl
@[simp] theorem State.loadRegs_mem (s : State) (x : Reg) (bs : List Byte) : (s.loadRegs x bs).mem = s.mem := rfl
@[simp] theorem State.loadRegs_loadPort (s : State) (x : Reg) (bs : List Byte) : (s.loadRegs x bs).loadPort = s.loadPort := rfl
@[simp] theorem State.loadRegs_inbox (s : State) (x : Reg) (bs : List Byte) : (s.loadRegs x bs).inbox = s.inbox := rfl
@[simp] theorem State.loadRegs_randIn (s : State) (x : Reg) (bs : List Byte) : (s.loadRegs x bs).randIn = s.randIn := rfl
@[simp] theorem State.loadRegs_moves (s : State) (x : Reg) (bs : List Byte) : (s.loadRegs x bs).moves = s.moves := rfl
@[simp] theorem State.loadRegs_draws (s : State) (x : Reg) (bs : List Byte) : (s.loadRegs x bs).draws = s.draws := rfl

end loadRegs

section closeLoadPort

@[simp] theorem closeLoadPort_v (s : State) : (closeLoadPort s).v = s.v := rfl
@[simp] theorem closeLoadPort_i (s : State) : (closeLoadPort s).i = s.i := rfl
@[simp] theorem closeLoadPort_pc (s : State) : (closeLoadPort s).pc = s.pc := rfl
@[simp] theorem closeLoadPort_stack (s : State) : (closeLoadPort s).stack = s.stack := rfl
@[simp] theorem closeLoadPort_sp (s : State) : (closeLoadPort s).sp = s.sp := rfl
@[simp] theorem closeLoadPort_dt (s : State) : (closeLoadPort s).dt = s.dt := rfl
@[simp] theorem closeLoadPort_st (s : State) : (closeLoadPort s).st = s.st := rfl
@[simp] theorem closeLoadPort_run (s : State) : (closeLoadPort s).run = s.run := rfl
@[simp] theorem closeLoadPort_fb (s : State) : (closeLoadPort s).fb = s.fb := rfl
@[simp] theorem closeLoadPort_keys (s : State) : (closeLoadPort s).keys = s.keys := rfl
@[simp] theorem closeLoadPort_mem (s : State) : (closeLoadPort s).mem = s.mem := rfl
@[simp] theorem closeLoadPort_inbox (s : State) : (closeLoadPort s).inbox = s.inbox := rfl
@[simp] theorem closeLoadPort_randIn (s : State) : (closeLoadPort s).randIn = s.randIn := rfl
@[simp] theorem closeLoadPort_moves (s : State) : (closeLoadPort s).moves = s.moves := rfl
@[simp] theorem closeLoadPort_draws (s : State) : (closeLoadPort s).draws = s.draws := rfl

end closeLoadPort

/-! ## Reading a register after a write -/

theorem State.reg_def (s : State) (x : Reg) : s.reg x = s.v[x] := rfl

@[simp] theorem State.reg_setV (s : State) (x y : Reg) (b : Byte) :
    (s.setV x b).reg y = if x = y then b else s.reg y := by
  simp [State.reg, Vector.getElem_set, Fin.ext_iff]

/-- R100: the flag survives in `VF`, the result stands in any other destination, every other register is unchanged. -/
theorem State.reg_setResultFlag (s : State) (x y : Reg) (b : Byte) (c : Bool) :
    (s.setResultFlag x b c).reg y = if y = vf then flagByte c else if x = y then b else s.reg y := by
  unfold State.setResultFlag
  by_cases h : y = vf <;> simp [h, eq_comm]

@[simp] theorem State.reg_setI (s : State) (a : Half) (y : Reg) : (s.setI a).reg y = s.reg y := rfl
@[simp] theorem State.reg_setPc (s : State) (a : Half) (y : Reg) : (s.setPc a).reg y = s.reg y := rfl
@[simp] theorem State.reg_setDt (s : State) (b : Byte) (y : Reg) : (s.setDt b).reg y = s.reg y := rfl
@[simp] theorem State.reg_setSt (s : State) (b : Byte) (y : Reg) : (s.setSt b).reg y = s.reg y := rfl
@[simp] theorem State.reg_setRun (s : State) (r : RunState) (y : Reg) : (s.setRun r).reg y = s.reg y := rfl
@[simp] theorem State.reg_setFb (s : State) (f : Vector (BitVec 64) 32) (y : Reg) : (s.setFb f).reg y = s.reg y := rfl
@[simp] theorem State.reg_setKeys (s : State) (k : BitVec 16) (y : Reg) : (s.setKeys k).reg y = s.reg y := rfl
@[simp] theorem State.reg_setMem (s : State) (m : List Host.Cell) (y : Reg) : (s.setMem m).reg y = s.reg y := rfl
@[simp] theorem State.reg_drawn (s : State) (y : Reg) : s.drawn.reg y = s.reg y := rfl
@[simp] theorem raise_reg (c : Cause) (a : Half) (s : State) (y : Reg) : (raise c a s).reg y = s.reg y := rfl
@[simp] theorem State.reg_storeAtI (s : State) (bs : List Byte) (y : Reg) : (s.storeAtI bs).reg y = s.reg y := rfl

end Sys2Proof.Machine
end

