-- ==== Sys2Proof/Laws/Ops.lean ====
section
/-! SUPPORT. One law per shared operation: everything it can do, for the proofs to cite instead of unfolding it. -/

namespace Sys2Proof.Machine

/-! ## Ranges (R46, R190) -/

theorem outOfRange_iff (base : Half) (len : Nat) :
    outOfRange base len = true ↔ 0 < len ∧ 0xFFF < base.toNat + len - 1 := by
  simp [outOfRange]

/-- A range is legal when it is empty or ends inside the 4096 bytes. -/
theorem outOfRange_eq_false_iff (base : Half) (len : Nat) :
    outOfRange base len = false ↔ len = 0 ∨ base.toNat + len ≤ 4096 := by
  rw [← Bool.not_eq_true, outOfRange_iff]; omega

theorem firstBadAddress_toNat (base : Half) : (firstBadAddress base).toNat = max base.toNat 0x1000 := by
  unfold firstBadAddress
  split
  · rw [show ((0x1000 : Half)).toNat = 0x1000 from rfl]; omega
  · omega

theorem withRange_of_legal {len : Nat} {s : State} (h : outOfRange s.i len = false) (ok : State) :
    withRange len s ok = ok := by simp [withRange, h]

theorem withRange_of_illegal {len : Nat} {s : State} (h : outOfRange s.i len = true) (ok : State) :
    withRange len s ok = raise .memOutOfBounds (firstBadAddress s.i) s := by simp [withRange, h]

/-- A checked access either faults with nothing changed or is what was asked for. -/
theorem withRange_cases (len : Nat) (s ok : State) :
    (outOfRange s.i len = false ∧ withRange len s ok = ok) ∨
      (outOfRange s.i len = true ∧ withRange len s ok = raise .memOutOfBounds (firstBadAddress s.i) s) := by
  cases h : outOfRange s.i len
  · exact Or.inl ⟨rfl, withRange_of_legal h ok⟩
  · exact Or.inr ⟨rfl, withRange_of_illegal h ok⟩

/-! ## Call stack (R81, R82) -/

/-- CALL on a stack with room. -/
theorem call_of_room {s : State} (target : Half) (h : s.sp.val < 16) :
    call target s =
      { s with stack := s.stack.set s.sp.val s.pc, sp := ⟨s.sp.val + 1, by omega⟩, pc := target } := by
  simp [call, h]

/-- CALL on a full stack. -/
theorem call_of_full {s : State} (target : Half) (h : s.sp.val = 16) : call target s = raise .stackOverflow 16 s := by
  simp [call, h]

/-- RET on a stack with an entry. -/
theorem ret_of_entry {s : State} (h : s.sp.val ≠ 0) :
    ret s = { s with sp := ⟨s.sp.val - 1, by omega⟩, pc := s.stack[s.sp.val - 1]'(by omega) } := by
  simp [ret, h]

/-- RET on an empty stack. -/
theorem ret_of_empty {s : State} (h : s.sp.val = 0) : ret s = raise .stackUnderflow 0 s := by
  simp [ret, h]

/-! ## Register blocks (R152, R153) -/

theorem regsUpTo_length (s : State) (x : Reg) : (s.regsUpTo x).length = x.val + 1 := by
  simp [State.regsUpTo]

/-- The `k`-th byte STM stores is `V[k]`. -/
theorem regsUpTo_getD (s : State) (x k : Reg) (h : k.val ≤ x.val) : (s.regsUpTo x).getD k.val 0 = s.reg k := by
  simp [State.regsUpTo, State.reg, List.getD_eq_getElem?_getD, Nat.lt_succ_of_le h]

/-- LDM puts the `k`-th byte into `V[k]` and leaves the registers after `V[x]`. -/
theorem reg_loadRegs (s : State) (x k : Reg) (bs : List Byte) :
    (s.loadRegs x bs).reg k = if k.val ≤ x.val then bs.getD k.val 0 else s.reg k := by
  simp [State.loadRegs, State.reg]

/-! ## Keys, timers, flags -/

theorem held_of_key {b : Byte} (h : b.toNat ≤ 0x0F) (s : State) : held b s = s.keys.getLsbD b.toNat := by
  simp [held, h, State.isPressed]

theorem held_of_no_key {b : Byte} (h : 0x0F < b.toNat) (s : State) : held b s = false := by
  simp [held, Nat.not_le.mpr h]

theorem decay_toNat (b : Byte) : (decay b).toNat = b.toNat - 1 := by
  unfold decay
  split
  · subst b; rfl
  · rename_i h
    have : b.toNat ≠ 0 := fun e => h (BitVec.eq_of_toNat_eq e)
    have := b.isLt
    rw [BitVec.toNat_sub, show ((1 : Byte)).toNat = 1 from rfl]; omega

theorem flagByte_toNat (b : Bool) : (flagByte b).toNat = b.toNat := by cases b <;> rfl

theorem zextNNN_toNat (nnn : BitVec 12) : (zextNNN nnn).toNat = nnn.toNat := by
  have := nnn.isLt
  rw [zextNNN, BitVec.toNat_setWidth]; omega

theorem zextByte_toNat (b : Byte) : (zextByte b).toNat = b.toNat := by
  have := b.isLt
  rw [zextByte, BitVec.toNat_setWidth]; omega

end Sys2Proof.Machine
end

