-- ==== Sys2Proof/Laws/PerInstr.lean ====
section
/-! SUPPORT. The family RoundTrip: what decoding the encoding of an instruction gives, one lemma per constructor. -/

namespace Sys2Proof.Laws.RoundTrip

/-- Decoding the word of a well-formed instruction gives the instruction back. -/
def Statement (i : Instr) : Prop := i.wf = true → decode (encode i) = i

theorem cls (m : Byte) : Statement (.cls m) := fun _ => by simp [decode, encode, decodeFamily0, Config.family0Exact]
theorem ret (m : Byte) : Statement (.ret m) := fun _ => by simp [decode, encode, decodeFamily0, Config.family0Exact]
theorem jp (nnn : BitVec 12) : Statement (.jp nnn) := fun _ => by simp [decode, encode]
theorem call (nnn : BitVec 12) : Statement (.call nnn) := fun _ => by simp [decode, encode]
theorem seImm (x : Reg) (nn : Byte) : Statement (.seImm x nn) := fun _ => by simp [decode, encode]
theorem sneImm (x : Reg) (nn : Byte) : Statement (.sneImm x nn) := fun _ => by simp [decode, encode]
theorem seReg (x y : Reg) : Statement (.seReg x y) := fun _ => by simp [decode, encode]
theorem ldImm (x : Reg) (nn : Byte) : Statement (.ldImm x nn) := fun _ => by simp [decode, encode]
theorem addImm (x : Reg) (nn : Byte) : Statement (.addImm x nn) := fun _ => by simp [decode, encode]
theorem mov (x y : Reg) : Statement (.mov x y) := fun _ => by simp [decode, encode, decodeFamily8]
theorem or (x y : Reg) : Statement (.or x y) := fun _ => by simp [decode, encode, decodeFamily8]
theorem and (x y : Reg) : Statement (.and x y) := fun _ => by simp [decode, encode, decodeFamily8]
theorem xor (x y : Reg) : Statement (.xor x y) := fun _ => by simp [decode, encode, decodeFamily8]
theorem addReg (x y : Reg) : Statement (.addReg x y) := fun _ => by simp [decode, encode, decodeFamily8]
theorem sub (x y : Reg) : Statement (.sub x y) := fun _ => by simp [decode, encode, decodeFamily8]
theorem shr (x y : Reg) : Statement (.shr x y) := fun _ => by simp [decode, encode, decodeFamily8]
theorem subn (x y : Reg) : Statement (.subn x y) := fun _ => by simp [decode, encode, decodeFamily8]
theorem shl (x y : Reg) : Statement (.shl x y) := fun _ => by simp [decode, encode, decodeFamily8]
theorem sneReg (x y : Reg) : Statement (.sneReg x y) := fun _ => by simp [decode, encode]
theorem ldIndex (nnn : BitVec 12) : Statement (.ldIndex nnn) := fun _ => by simp [decode, encode]
theorem jpV0 (nnn : BitVec 12) : Statement (.jpV0 nnn) := fun _ => by simp [decode, encode]
theorem rnd (x : Reg) (nn : Byte) : Statement (.rnd x nn) := fun _ => by simp [decode, encode]
theorem drw (x y : Reg) (n : Fin 16) : Statement (.drw x y n) := fun _ => by simp [decode, encode, nib]
theorem skp (x : Reg) : Statement (.skp x) := fun _ => by simp [decode, encode, decodeFamilyE]
theorem sknp (x : Reg) : Statement (.sknp x) := fun _ => by simp [decode, encode, decodeFamilyE]
theorem ldDt (x : Reg) : Statement (.ldDt x) := fun _ => by simp [decode, encode, decodeFamilyF]
theorem waitKey (x : Reg) : Statement (.waitKey x) := fun _ => by simp [decode, encode, decodeFamilyF]
theorem stDt (x : Reg) : Statement (.stDt x) := fun _ => by simp [decode, encode, decodeFamilyF]
theorem stSt (x : Reg) : Statement (.stSt x) := fun _ => by simp [decode, encode, decodeFamilyF]
theorem addIndex (x : Reg) : Statement (.addIndex x) := fun _ => by simp [decode, encode, decodeFamilyF]
theorem font (x : Reg) : Statement (.font x) := fun _ => by simp [decode, encode, decodeFamilyF]
theorem bcd (x : Reg) : Statement (.bcd x) := fun _ => by simp [decode, encode, decodeFamilyF]
theorem stm (x : Reg) : Statement (.stm x) := fun _ => by simp [decode, encode, decodeFamilyF]
theorem ldm (x : Reg) : Statement (.ldm x) := fun _ => by simp [decode, encode, decodeFamilyF]

theorem nop (op : Half) : Statement (.nop op) := fun h => decode_of_reserved h

end Sys2Proof.Laws.RoundTrip
end

