-- ==== Sys2Proof/Laws/Step.lean ====
section
/-! SUPPORT. Everything a tick and a step can do, said once. -/

namespace Sys2Proof.Machine

/-- A tick after a failed load is refused; every other tick closes the load port, decays if due, and goes on. -/
theorem tick_of_run {s : State} (t : TickIn) (h : s.loadPort ≠ .outOfSpace) :
    tick t s = afterDecay t (decayIfDue t (closeLoadPort s)) := by
  unfold tick
  split
  · contradiction
  · rfl

theorem tick_of_failed_load {s : State} (t : TickIn) (h : s.loadPort = .outOfSpace) :
    tick t s = .refused .runAfterFailedLoad := by simp [tick, h]

/-- What follows the decay of a tick, by run state (R171, steps 2 and 3). -/
theorem afterDecay_cases {t : TickIn} {s s' : State} (h : afterDecay t s = .next s') :
    (s' = s ∧ (s.run = .running → t.instrDue = false) ∧ (∀ r, s.run = .awaitingKey r → t.keyEvent = none)) ∨
    (∃ r k, s.run = .awaitingKey r ∧ t.keyEvent = some k ∧ s' = keyResolve r k s) ∨
    (s.run = .running ∧ t.instrDue = true ∧ instrStep s = .next s') := by
  unfold afterDecay at h
  split at h
  · rename_i r hr
    split at h
    · rename_i k hk
      exact Or.inr (Or.inl ⟨r, k, hr, hk, (Host.Outcome.next.inj h).symm⟩)
    · rename_i hk
      exact Or.inl ⟨(Host.Outcome.next.inj h).symm, by simp [hr], fun _ _ => hk⟩
  · rename_i hr
    by_cases hd : t.instrDue = true
    · rw [if_pos hd] at h; exact Or.inr (Or.inr ⟨hr, hd, h⟩)
    · rw [if_neg hd] at h
      exact Or.inl ⟨(Host.Outcome.next.inj h).symm, fun _ => by simpa using hd, by simp [hr]⟩
  · rename_i hr
    exact Or.inl ⟨(Host.Outcome.next.inj h).symm, by simp [hr], by simp [hr]⟩

/-- What an instruction step can do (R174, R175): halt at a bad fetch address, or run the decoded instruction. -/
theorem instrStep_cases (s : State) :
    (0x0FFE < s.pc.toNat ∧ instrStep s = .next (enterFault .pcOutOfRange s.pc s.pc s)) ∨
    (s.pc.toNat ≤ 0x0FFE ∧ instrStep s = exec (decode (fetchWord s)) (s.setPc (s.pc + 2))) := by
  by_cases h : 0x0FFE < s.pc.toNat
  · exact Or.inl ⟨h, by rw [instrStep, if_pos (show Config.lastSlot < _ from h)]⟩
  · exact Or.inr ⟨by omega, by rw [instrStep, if_neg (show ¬ Config.lastSlot < _ from h)]⟩

/-- What a step can do: one of the five moves of the host, the next in the inbox or a free one. -/
theorem step_cases {s s' : State} (h : step s = .next s') :
    (∃ t, nextMove s = .tick t ∧ s.loadPort ≠ .outOfSpace ∧
      afterDecay t (decayIfDue t (closeLoadPort (takeMove s))) = .next s') ∨
    (nextMove s = .reset ∧ s' = applyReset (takeMove s)) ∨
    (∃ k, nextMove s = .press k ∧ s' = press k (takeMove s)) ∨
    (∃ k, nextMove s = .release k ∧ s' = release k (takeMove s)) ∨
    (∃ bytes, nextMove s = .load bytes ∧ s.loadPort = .pending ∧ loadProgram bytes (takeMove s) = .next s') := by
  unfold step at h
  cases hm : nextMove s with
  | reset => rw [hm] at h; exact Or.inr (Or.inl ⟨rfl, (Host.Outcome.next.inj h).symm⟩)
  | press k => rw [hm] at h; exact Or.inr (Or.inr (Or.inl ⟨k, rfl, (Host.Outcome.next.inj h).symm⟩))
  | release k => rw [hm] at h; exact Or.inr (Or.inr (Or.inr (Or.inl ⟨k, rfl, (Host.Outcome.next.inj h).symm⟩)))
  | load bytes =>
    rw [hm] at h
    refine Or.inr (Or.inr (Or.inr (Or.inr ⟨bytes, rfl, ?_, h⟩)))
    cases hp : s.loadPort with
    | pending => rfl
    | _ => simp [hostMove, loadProgram, hp] at h
  | tick t =>
    rw [hm] at h
    refine Or.inl ⟨t, rfl, fun hp => ?_, ?_⟩
    · rw [hostMove, tick_of_failed_load t (by simpa using hp)] at h; cases h
    · rw [hostMove, tick] at h
      split at h
      · cases h
      · exact h

end Sys2Proof.Machine
end

