-- ==== Sys2Proof/Tests/Slice0.lean ====
section
/-! SUPPORT. The model's own tests: well-formedness smoke tests, one decoding of a written-out word for every constructor,
one or two single steps per instruction, and the witnesses of the obligations' hypotheses. Expected values are those of
`95_test_vectors.md` (the vector's number stands beside each test) or of a rule's own example. -/

namespace Sys2Proof.Tests

open Sys2Proof.Machine Sys2Proof.Spec

/-- What a function sees in the next state of an outcome. -/
def after {α : Type} (o : Result) (f : State → α) : Option α :=
  match o with
  | .next t => some (f t)
  | .fault _ => none
  | .refused _ => none

/-- The reset state with some registers set. -/
def withRegs (rs : List (Reg × Byte)) : State := rs.foldl (fun s r => s.setV r.1 r.2) State.reset

/-- A state with bytes stored from an address up. -/
def withBytes (a : Nat) (bs : List Byte) (s : State) : State := s.setMem (Memory.setBytes s.mem a bs)

/-- A state with some pixels lit. -/
def withLit (ps : List (Nat × Nat)) (s : State) : State :=
  s.setFb (ps.foldl (fun f p => (xorPixel f p.1 p.2 true).1) clearedFb)

/-- A state with `SP` and the stack's lowest entries set. -/
def withStack (sp : Fin 17) (es : List Half) (s : State) : State :=
  { s with sp := sp, stack := Vector.ofFn fun j : Fin 16 => es.getD j.val 0 }

/-- The next step, with the word `w` placed where it fetches. -/
def runWord (w : Nat) (s : State) : Result := step (s.withFetchWord 16 w)

/-- The pixels lit in a block of columns and rows, in reading order. -/
def litIn (x y w h : Nat) (s : State) : List (Nat × Nat) :=
  ((List.range h).flatMap fun dy => (List.range w).map fun dx => (x + dx, y + dy)).filter fun p => cell s.fb p.1 p.2

/-! ## WellFormed -/

/-- The check of a NOP's word refuses an assigned word of each family that has reserved ones (R67). -/
theorem test_wf_refuses_assigned_words :
    (Instr.nop 0x00E0).wf = false ∧ (Instr.nop 0x00EE).wf = false ∧ (Instr.nop 0x1234).wf = false ∧
    (Instr.nop 0x5120).wf = false ∧ (Instr.nop 0x812E).wf = false ∧ (Instr.nop 0x9120).wf = false ∧
    (Instr.nop 0xE09E).wf = false ∧ (Instr.nop 0xF065).wf = false := by decide

/-- The reserved words named in R67 are well-formed NOPs. -/
theorem test_wf_admits_reserved_words :
    (Instr.nop 0x0001).wf = true ∧ (Instr.nop 0x5121).wf = true ∧ (Instr.nop 0x8128).wf = true ∧
    (Instr.nop 0x812F).wf = true ∧ (Instr.nop 0x9125).wf = true ∧ (Instr.nop 0xE19F).wf = true ∧
    (Instr.nop 0xF0FF).wf = true := by decide

/-- The other check (bits 11 to 4 of CLS and RET) refuses nothing while `FAMILY0_EXACT` is false (D11). -/
theorem test_wf_ignored_bits_admitted : (Instr.cls 0x12).wf = true ∧ (Instr.ret 0xAB).wf = true := by decide

/-! ## Decoding: every constructor, by a word written out from the formats of R61 and the patterns of R66 -/

theorem test_decode_family0 :
    decode 0b0000000011100000 = .cls 0x0E ∧ decode 0b0000000000000000 = .cls 0x00 ∧
    decode 0b0000000100100000 = .cls 0x12 ∧ decode 0b0000000011101110 = .ret 0x0E ∧
    decode 0b0000101010111110 = .ret 0xAB ∧ decode 0b0000000011100001 = .nop 0x00E1 := by decide

theorem test_decode_control :
    decode 0b0001001000110100 = .jp 0x234 ∧ decode 0b0010001100000000 = .call 0x300 ∧
    decode 0b1011111111111110 = .jpV0 0xFFE := by decide

theorem test_decode_skips :
    decode 0b0011101001000010 = .seImm 0xA 0x42 ∧ decode 0b0100101001000010 = .sneImm 0xA 0x42 ∧
    decode 0b0101000100100000 = .seReg 1 2 ∧ decode 0b1001000100100000 = .sneReg 1 2 ∧
    decode 0b0101000100100001 = .nop 0x5121 ∧ decode 0b1001000100100101 = .nop 0x9125 := by decide

theorem test_decode_loads_and_alu :
    decode 0b0110101011111111 = .ldImm 0xA 0xFF ∧ decode 0b0111111100000001 = .addImm 0xF 0x01 ∧
    decode 0b1000000100100000 = .mov 1 2 ∧ decode 0b1000000100100001 = .or 1 2 ∧
    decode 0b1000000100100010 = .and 1 2 ∧ decode 0b1000000100100011 = .xor 1 2 ∧
    decode 0b1000000100100100 = .addReg 1 2 ∧ decode 0b1000000100100101 = .sub 1 2 ∧
    decode 0b1000000100100110 = .shr 1 2 ∧ decode 0b1000000100100111 = .subn 1 2 ∧
    decode 0b1000000100101110 = .shl 1 2 ∧ decode 0b1000000100101111 = .nop 0x812F ∧
    decode 0b1010001011110000 = .ldIndex 0x2F0 ∧ decode 0b1100001100001111 = .rnd 3 0x0F ∧
    decode 0b1111001000011110 = .addIndex 2 := by decide

theorem test_decode_display : decode 0b1101000000010101 = .drw 0 1 5 ∧ decode 0b1111010000101001 = .font 4 := by decide

theorem test_decode_keypad :
    decode 0b1110001010011110 = .skp 2 ∧ decode 0b1110001010100001 = .sknp 2 ∧ decode 0b1111001100001010 = .waitKey 3 ∧
    decode 0b1110000110011111 = .nop 0xE19F := by decide

theorem test_decode_timers :
    decode 0b1111010100000111 = .ldDt 5 ∧ decode 0b1111010100010101 = .stDt 5 ∧ decode 0b1111010100011000 = .stSt 5 := by
  decide

theorem test_decode_memory :
    decode 0b1111000100110011 = .bcd 1 ∧ decode 0b1111001001010101 = .stm 2 ∧ decode 0b1111001001100101 = .ldm 2 ∧
    decode 0b1111000011111111 = .nop 0xF0FF := by decide

/-- Bytes are read big-endian (R44), the rest is left, and fewer than two bytes give no instruction. -/
theorem test_decode_bytes :
    (decodeBytes [0x12, 0x34, 0x56] matches .ok (.jp 0x234, [0x56])) = true ∧
    (decodeBytes [0x12] matches .error .truncated) = true ∧ (decodeBytes [] matches .error .truncated) = true := by decide

theorem test_decode_table_word : decodeTableWord 16 0xD015 = some (.drw 0 1 5) ∧ decodeTableWord 16 0x0000 = some (.cls 0) := by
  decide

/-! ## One step per instruction -/

/-- K1. -/
theorem test_jp : after (runWord 0x1ABC State.reset) (·.pc) = some 0x0ABC := by decide
/-- K4: the sum is not reduced modulo 4096. -/
theorem test_jpV0 : after (runWord 0xBFFF (withRegs [(0, 0xFF)])) (·.pc) = some 0x10FE := by decide
/-- K6: the sixteenth entry is usable. -/
theorem test_call : after (runWord 0x2300 (withStack 15 [] State.reset)) (fun t => (t.stack[15], t.sp, t.pc)) =
    some (0x0202, 16, 0x0300) := by decide
/-- K7: `StackOverflow`. -/
theorem test_call_overflow : after (runWord 0x2300 (withStack 16 [] State.reset)) (fun t => (t.run, t.pc, t.sp)) =
    some (.halted .stackOverflow 0x0200 16, 0x0200, 16) := by decide
/-- K10: a non-canonical spelling; the entry popped is the topmost. -/
theorem test_ret : after (runWord 0x0ABE (withStack 2 [0x0300, 0x0402] State.reset)) (fun t => (t.sp, t.pc, t.stack[1])) =
    some (1, 0x0402, 0x0402) := by decide
/-- K8: `StackUnderflow`. -/
theorem test_ret_underflow : after (runWord 0x00EE State.reset) (fun t => (t.run, t.pc, t.sp)) =
    some (.halted .stackUnderflow 0x0200 0, 0x0200, 0) := by decide
/-- K15, its second tick: the run-off is found at the next fetch. -/
theorem test_fetch_past_end : after (step { State.reset with pc := 0x1000, inbox := [.tick instrTick] }) (fun t => (t.run, t.pc)) =
    some (.halted .pcOutOfRange 0x1000 0x1000, 0x1000) := by decide

/-- B1, B2. -/
theorem test_seImm : after (runWord 0x3A42 (withRegs [(0xA, 0x42)])) (·.pc) = some 0x0204 ∧
    after (runWord 0x3A42 (withRegs [(0xA, 0x41)])) (·.pc) = some 0x0202 := by decide
/-- B3, B4. -/
theorem test_sneImm : after (runWord 0x4A42 (withRegs [(0xA, 0x42)])) (·.pc) = some 0x0202 ∧
    after (runWord 0x4A42 (withRegs [(0xA, 0x41)])) (·.pc) = some 0x0204 := by decide
/-- B5, B6. -/
theorem test_seReg : after (runWord 0x5120 (withRegs [(1, 7), (2, 7)])) (·.pc) = some 0x0204 ∧
    after (runWord 0x5120 (withRegs [(1, 7), (2, 8)])) (·.pc) = some 0x0202 := by decide
/-- B9, B10. -/
theorem test_sneReg : after (runWord 0x9120 (withRegs [(1, 7), (2, 7)])) (·.pc) = some 0x0202 ∧
    after (runWord 0x9120 (withRegs [(1, 7), (2, 8)])) (·.pc) = some 0x0204 := by decide

/-- A1. -/
theorem test_ldImm : after (runWord 0x6AFF State.reset) (fun t => (t.reg 0xA, t.pc)) = some (0xFF, 0x0202) := by decide
/-- A2: no flag. -/
theorem test_addImm : after (runWord 0x7001 (withRegs [(0, 0xFF)])) (fun t => (t.reg 0, t.reg 15)) = some (0x00, 0x00) := by
  decide
/-- A4. -/
theorem test_mov : after (runWord 0x8120 (withRegs [(1, 0x01), (2, 0x99)])) (fun t => (t.reg 1, t.reg 2)) =
    some (0x99, 0x99) := by decide
/-- A5. -/
theorem test_or : after (runWord 0x8121 (withRegs [(1, 0xF0), (2, 0x0F), (15, 7)])) (fun t => (t.reg 1, t.reg 15)) =
    some (0xFF, 0x07) := by decide
/-- A6. -/
theorem test_and : after (runWord 0x8122 (withRegs [(1, 0xF3), (2, 0x3F), (15, 7)])) (fun t => (t.reg 1, t.reg 15)) =
    some (0x33, 0x07) := by decide
/-- A7. -/
theorem test_xor : after (runWord 0x8123 (withRegs [(1, 0xFF), (2, 0x0F), (15, 7)])) (fun t => (t.reg 1, t.reg 15)) =
    some (0xF0, 0x07) := by decide
/-- A12: 255 is no carry. -/
theorem test_addReg : after (runWord 0x8124 (withRegs [(1, 0xFE), (2, 0x01)])) (fun t => (t.reg 1, t.reg 15)) =
    some (0xFF, 0x00) := by decide
/-- A13: with `x = F` the flag survives. -/
theorem test_addReg_flag_last : after (runWord 0x8F14 (withRegs [(15, 0xFF), (1, 0x02)])) (·.reg 15) = some 0x01 := by decide
/-- A17. -/
theorem test_sub : after (runWord 0x8125 (withRegs [(1, 0x03), (2, 0x05)])) (fun t => (t.reg 1, t.reg 15)) =
    some (0xFE, 0x00) := by decide
/-- A18: equal operands. -/
theorem test_sub_equal : after (runWord 0x8125 (withRegs [(1, 0x05), (2, 0x05)])) (fun t => (t.reg 1, t.reg 15)) =
    some (0x00, 0x00) := by decide
/-- A21: `V[y]` is ignored. -/
theorem test_shr : after (runWord 0x8126 (withRegs [(1, 0x05), (2, 0xFF)])) (fun t => (t.reg 1, t.reg 15, t.reg 2)) =
    some (0x02, 0x01, 0xFF) := by decide
/-- A25. -/
theorem test_subn : after (runWord 0x8127 (withRegs [(1, 0x03), (2, 0x05)])) (fun t => (t.reg 1, t.reg 15)) =
    some (0x02, 0x01) := by decide
/-- A28: the flag is 1, not the masked byte. -/
theorem test_shl : after (runWord 0x812E (withRegs [(1, 0x81)])) (fun t => (t.reg 1, t.reg 15)) = some (0x02, 0x01) := by decide
/-- A33. -/
theorem test_ldIndex : after (runWord 0xA123 State.reset) (·.i) = some 0x0123 := by decide
/-- A36: wraps modulo 65536, no flag. -/
theorem test_addIndex : after (runWord 0xF11E ((withRegs [(1, 0x02), (15, 5)]).setI 0xFFFF)) (fun t => (t.i, t.reg 15)) =
    some (0x0001, 0x05) := by decide
/-- A38. -/
theorem test_rnd : after (runWord 0xC10F { State.reset with randIn := [0xA7] }) (fun t => (t.reg 1, t.randIn)) =
    some (0x07, []) := by decide

/-- G1. -/
theorem test_cls : after (runWord 0x00E0 (withLit [(0, 0), (63, 31)] (withRegs [(15, 1)])))
    (fun t => (t.pixel 0 0, t.pixel 63 31, t.reg 15)) = some (false, false, 0x01) := by decide
/-- G6: the left pixel is erased, the next one drawn. -/
theorem test_drw_collision : after (runWord 0xD121 (withLit [(0, 0)] (withBytes 0x300 [0xC0] (State.reset.setI 0x300))))
    (fun t => (litIn 0 0 8 2 t, t.reg 15)) = some ([(1, 0)], 0x01) := by decide
/-- G10: the part cut off at the right edge neither draws nor collides at column 0. -/
theorem test_drw_clips : after (runWord 0xD121
      (withLit [(0, 0), (1, 0)] (withBytes 0x300 [0xFF] ((withRegs [(1, 0x3E)]).setI 0x300))))
    (fun t => (litIn 0 0 64 1 t, t.reg 15)) = some ([(0, 0), (1, 0), (62, 0), (63, 0)], 0x00) := by decide
/-- G25: no nibble mask. -/
theorem test_font : after (runWord 0xF129 (withRegs [(1, 0x0A)])) (·.i) = some 0x0032 ∧
    after (runWord 0xF129 (withRegs [(1, 0xFF)])) (·.i) = some 0x04FB := by decide

/-- Y1, Y3. -/
theorem test_skp : after (runWord 0xE19E ((withRegs [(1, 0x05)]).setKeys 0x0020)) (·.pc) = some 0x0204 ∧
    after (runWord 0xE19E ((withRegs [(1, 0x10)]).setKeys 0xFFFF)) (·.pc) = some 0x0202 := by decide
/-- Y4, Y6. -/
theorem test_sknp : after (runWord 0xE1A1 ((withRegs [(1, 0x05)]).setKeys 0x0020)) (·.pc) = some 0x0202 ∧
    after (runWord 0xE1A1 ((withRegs [(1, 0xFF)]).setKeys 0xFFFF)) (·.pc) = some 0x0204 := by decide
/-- Y8. -/
theorem test_waitKey : after (runWord 0xF30A State.reset) (fun t => (t.pc, t.run)) = some (0x0202, .awaitingKey 3) := by decide
/-- T5, its resolving tick: the key is written and nothing is executed. -/
theorem test_waitKey_resolves :
    after (step { State.reset with run := .awaitingKey 5, pc := 0x0202, inbox := [.tick ⟨false, true, some 0xC⟩] })
    (fun t => (t.reg 5, t.run, t.pc)) = some (0x0C, .running, 0x0202) := by decide

/-- D1. -/
theorem test_ldDt : after (runWord 0xF107 (State.reset.setDt 0x2A)) (·.reg 1) = some 0x2A := by decide
/-- D5: the decay of a tick precedes its instruction. -/
theorem test_ldDt_after_decay :
    after (step { (State.reset.withFetchWord 16 0xF107).setDt 5 with inbox := [.tick ⟨true, true, none⟩] })
      (fun t => (t.dt, t.reg 1)) = some (0x04, 0x04) := by decide
/-- D2. -/
theorem test_stDt : after (runWord 0xF115 (withRegs [(1, 0x3C)])) (·.dt) = some 0x3C := by decide
/-- D4. -/
theorem test_stSt : after (runWord 0xF118 (State.reset.setSt 9)) (fun t => (t.st, t.tone)) = some (0x00, false) := by decide

/-- M1. -/
theorem test_bcd : after (runWord 0xF133 ((withRegs [(1, 0xEA)]).setI 0x300)) (fun t => Memory.getBytes t.mem 0x300 3) =
    some [0x02, 0x03, 0x04] := by decide
/-- M5: no partial write. -/
theorem test_bcd_out_of_range : after (runWord 0xF133 ((withRegs [(1, 0x07)]).setI 0x0FFE))
    (fun t => (t.run, t.pc, Memory.getBytes t.mem 0xFFE 2)) =
    some (.halted .memOutOfBounds 0x0200 0x1000, 0x0200, [0x00, 0x00]) := by decide
/-- M6: inclusive of `V2`, not of `V3`. -/
theorem test_stm : after (runWord 0xF255 ((withRegs [(0, 0x11), (1, 0x22), (2, 0x33), (3, 0x44)]).setI 0x400))
    (fun t => (Memory.getBytes t.mem 0x400 4, t.i)) = some ([0x11, 0x22, 0x33, 0x00], 0x0400) := by decide
/-- The example of R153. -/
theorem test_ldm : after (runWord 0xF265 (withBytes 0x300 [0x11, 0x22, 0x33, 0x44] (State.reset.setI 0x300)))
    (fun t => (t.reg 0, t.reg 1, t.reg 2, t.reg 3, t.i)) = some (0x11, 0x22, 0x33, 0x00, 0x0300) := by decide
/-- B8: a reserved word advances `PC` and does nothing else. -/
theorem test_nop : after (runWord 0x5121 (withRegs [(1, 7), (2, 7)])) (fun t => (t.pc, t.v)) =
    some (0x0202, (withRegs [(1, 7), (2, 7)]).v) := by decide

/-- R172: a timer stops at zero. -/
theorem test_decay_stops : after (step { State.reset with dt := 1, st := 0, inbox := [.tick ⟨true, false, none⟩] })
    (fun t => (t.dt, t.st)) = some (0x00, 0x00) := by decide
/-- R28, R178: with no move waiting the host's next move is a free value; it is counted when it is made. -/
theorem test_free_move : nextMove State.reset = Config.hostMove 0 ∧ (takeMove State.reset).moves = 1 := ⟨rfl, rfl⟩
/-- R25, R31. -/
theorem test_press : after (step { State.reset with keys := 0x0001, inbox := [.press 5] }) (·.keys) = some 0x0021 := by decide
/-- The host's interface runs the same step. -/
theorem test_core_step : core.step = step ∧ core.reset = State.reset := ⟨rfl, rfl⟩

/-! ## Witnesses: concrete states and operands that meet the hypotheses of the obligations, clause by clause -/

/-- A tick due for the timers and for an instruction, with a key event. -/
def busyTick : TickIn where
  timerDue := true
  instrDue := true
  keyEvent := some 0xC

/-- The reset state with one host move waiting. -/
def withMove (m : HostMove) (s : State) : State := { s with inbox := [m] }

theorem nextMove_withMove (m : HostMove) (s : State) : nextMove (withMove m s) = m := rfl

/-- The host's next move is that tick. -/
theorem nextTick_withMove (t : TickIn) (s : State) (h : s.loadPort ≠ .outOfSpace) : NextTick t (withMove (.tick t) s) := ⟨rfl, h⟩

theorem witness_DecodeOfEncodedBytes : (Instr.drw 15 15 15).wf = true ∧ (Instr.nop 0xFFFF).wf = true := by decide

/-- An instruction in the last slot, under a tick that also decays the timers and carries an event. -/
theorem witness_StepRunsDecodedInstruction : ∃ (s : State) (i : Instr), NextTick busyTick s ∧ busyTick.instrDue = true ∧
    s.run = .running ∧ s.pc.toNat = 0x0FFE ∧
    decodeBytes [Memory.get s.mem s.pc.toNat, Memory.get s.mem (s.pc.toNat + 1)] = .ok (i, []) :=
  ⟨withMove (.tick busyTick) (withBytes 0xFFE [0xD0, 0x15] (State.reset.setPc 0xFFE)), .drw 0 1 5,
    nextTick_withMove _ _ (by decide), rfl, rfl, rfl, rfl⟩

/-- The first address past the last slot, and the largest `PC` the invariant admits. -/
theorem witness_FetchPastEndHalts :
    (∃ s : State, NextTick busyTick s ∧ busyTick.instrDue = true ∧ s.run = .running ∧ s.pc.toNat = 0x0FFF) ∧
    (∃ s : State, NextTick busyTick s ∧ busyTick.instrDue = true ∧ s.run = .running ∧ s.pc.toNat = 0x10FE) :=
  ⟨⟨withMove (.tick busyTick) (State.reset.setPc 0x0FFF), nextTick_withMove _ _ (by decide), rfl, rfl, rfl⟩,
    ⟨withMove (.tick busyTick) (State.reset.setPc 0x10FE), nextTick_withMove _ _ (by decide), rfl, rfl, rfl⟩⟩

/-- A waiting machine with and without a key event. -/
theorem witness_WaitingTickResolvesOnKeyEvent : ∀ t ∈ [busyTick, instrTick], ∃ s : State, NextTick t s ∧
    s.run = .awaitingKey 15 :=
  fun t _ => ⟨withMove (.tick t) (State.reset.setRun (.awaitingKey 15)), nextTick_withMove _ _ (by decide), rfl⟩

/-- A running machine whose tick is not due for an instruction, and a halted one. -/
theorem witness_IdleTickOnlyDecays :
    (∃ (s : State) (t : TickIn), NextTick t s ∧ s.run = .running ∧ t.instrDue = false) ∧
    (∃ s : State, NextTick busyTick s ∧ ∃ c p a, s.run = .halted c p a) :=
  ⟨⟨withMove (.tick ⟨true, false, some 0⟩) State.reset, ⟨true, false, some 0⟩, nextTick_withMove _ _ (by decide), rfl, rfl⟩,
    ⟨withMove (.tick busyTick) (State.reset.setRun (.halted .stackOverflow 0x0200 16)), nextTick_withMove _ _ (by decide),
      _, _, _, rfl⟩⟩

/-- A halted machine under each of the five moves of the host, each of which answers a next state. -/
theorem witness_OnlyResetLeavesHalted : ∀ m ∈ [HostMove.reset, .load [0x00], .press 0, .release 15, .tick busyTick],
    ∃ s u : State, s.run = .halted .stackUnderflow 0x0200 0 ∧ nextMove s = m ∧ step s = .next u := by
  intro m h
  refine ⟨withMove m (State.reset.setRun (.halted .stackUnderflow 0x0200 0)), ?_⟩
  simp only [List.mem_cons, List.not_mem_nil, or_false] at h
  rcases h with rfl | rfl | rfl | rfl | rfl <;> exact ⟨_, rfl, rfl, rfl⟩

/-- A running machine whose next step halts, by the fetch and by an instruction. -/
theorem witness_FaultsArePrecise :
    (∃ s u : State, NextTick instrTick s ∧ s.run = .running ∧ step s = .next u ∧
      u.run = .halted .pcOutOfRange 0x0FFF 0x0FFF) ∧
    (∃ s u : State, NextTick instrTick s ∧ s.run = .running ∧ step s = .next u ∧ u.run = .halted .stackUnderflow 0x0200 0) :=
  ⟨⟨withMove (.tick instrTick) (State.reset.setPc 0x0FFF), _, ⟨rfl, by decide⟩, rfl, rfl, rfl⟩,
    ⟨State.reset.withFetchWord 16 0x00EE, _, ⟨rfl, by decide⟩, rfl, rfl, rfl⟩⟩

/-- Each fault of the table at the boundary of its condition, and no fault one step inside it. -/
theorem witness_FaultCausesAreExact :
    faultOf (.call 0x300) (withStack 16 [] State.reset) = some (.stackOverflow, 16) ∧
    faultOf (.call 0x300) (withStack 15 [] State.reset) = none ∧
    faultOf (.ret 0) (withStack 0 [] State.reset) = some (.stackUnderflow, 0) ∧
    faultOf (.ret 0) (withStack 1 [] State.reset) = none ∧
    faultOf (.drw 0 1 2) (State.reset.setI 0x0FFF) = some (.memOutOfBounds, 0x1000) ∧
    faultOf (.drw 0 1 1) (State.reset.setI 0x0FFF) = none ∧ faultOf (.drw 0 1 0) (State.reset.setI 0xFFFF) = none ∧
    faultOf (.bcd 0) (State.reset.setI 0x0FFE) = some (.memOutOfBounds, 0x1000) ∧
    faultOf (.bcd 0) (State.reset.setI 0x0FFD) = none ∧
    faultOf (.stm 15) (State.reset.setI 0x0FF1) = some (.memOutOfBounds, 0x1000) ∧
    faultOf (.stm 15) (State.reset.setI 0x0FF0) = none ∧
    faultOf (.ldm 0) (State.reset.setI 0xFFFF) = some (.memOutOfBounds, 0xFFFF) ∧
    faultOf (.ldm 0) (State.reset.setI 0x0FFF) = none := by decide

/-- Each of the two refusals, and the moves just beside them, which are none. -/
theorem witness_OnlyLoadMisuseIsRefused :
    step (withMove (.load [0x00]) { State.reset with loadPort := .loaded }) = .refused .lateLoad ∧
    step (withMove (.tick busyTick) { State.reset with loadPort := .outOfSpace }) = .refused .runAfterFailedLoad ∧
    after (step (withMove (.load [0x00]) State.reset)) (·.loadPort) = some .loaded ∧
    after (step (withMove (.press 0) { State.reset with loadPort := .outOfSpace })) (·.keys) = some 0x0001 :=
  ⟨rfl, rfl, by decide, by decide⟩

theorem witness_EveryInstructionKeepsItsFrame : ∃ t, exec (.stm 15) (State.reset.setI 0x0FF0) = .next t := ⟨_, rfl⟩

/-- A register that is no destination, `VF` under an instruction that writes no flag, and a flag writer without a fault. -/
theorem witness_FlagRegisterRules :
    (∃ t, exec (.addReg 14 15) State.reset = .next t) ∧ isDestination 13 (.addReg 14 15) = false ∧ (13 : Reg) ≠ 15 ∧
    isDestination 15 (.ldm 14) = false ∧ writesFlag (.ldm 14) = false ∧
    writesFlag (.drw 0 1 1) = true ∧ faultOf (.drw 0 1 1) (State.reset.setI 0x0FFF) = none :=
  ⟨⟨_, rfl⟩, by decide⟩

/-- Two states that differ in what an instruction cannot see. -/
theorem witness_InstructionsSeeOnlyTheirInputs : ∃ s s' t t' : State, s ≠ s' ∧ SameBut (cannotSee (.waitKey 3)) s s' ∧
    exec (.waitKey 3) s = .next t ∧ exec (.waitKey 3) s' = .next t' := by
  refine ⟨State.reset, { State.reset with st := 7, keys := 0xFFFF, randIn := [0xA7], draws := 3, moves := 5 }, _, _, ?_, ?_, rfl, rfl⟩
  · intro h
    exact absurd (congrArg State.st h) (by decide)
  · intro p hp
    cases p <;> first
      | exact absurd (by decide) hp
      | rfl
      | exact fun _ => rfl
      | exact fun _ _ => rfl

/-- A state with every part of the invariant at its bound, which the step leaves by a RET to the largest saved address. -/
theorem witness_StepKeepsInvariant : ∃ s t : State, s.Inv ∧ step s = .next t ∧ t.pc = 0x1000 := by
  refine ⟨withStack 1 [0x1000] (withBytes 0xFFE [0x00, 0xEE] (withMove (.tick instrTick) (State.reset.setPc 0x0FFE))), _, ⟨by decide, by decide, ?_⟩, rfl, by decide⟩
  decide

/-- The last byte of a memory in canonical form. -/
theorem witness_MemoryReadAfterWrite : Memory.wf (Memory.set [] 0x200 0x12) = true ∧ 4095 < 4096 := by decide

/-- Two memories in canonical form, written in different orders, that read alike. -/
theorem witness_CanonicalMemoriesAreEqual : ∃ m m' : List Host.Cell, Memory.wf m = true ∧ Memory.wf m' = true ∧
    (∀ a : Nat, Memory.get m a = Memory.get m' a) :=
  ⟨Memory.setBytes (Memory.set [] 0x301 0x00) 0x300 [0x12, 0x34], Memory.set (Memory.set [] 0x301 0x34) 0x300 0x12,
    by decide, by decide, fun _ => rfl⟩

/-- An STM in the last place from which it can still overwrite the instruction after it, under two ticks that are due. -/
theorem witness_StoredInstructionRunsNext : ∃ s t : State, NextTick instrTick s ∧ instrTick.instrDue = true ∧
    s.run = .running ∧ s.pc.toNat = 0x0FFC ∧
    decode (Memory.get s.mem s.pc.toNat ++ Memory.get s.mem (s.pc.toNat + 1)) = .stm 1 ∧
    s.i.toNat = s.pc.toNat + 2 ∧ s.i.toNat + 1 ≤ 0xFFF ∧ step s = .next t ∧ NextTick busyTick t ∧ busyTick.instrDue = true :=
  ⟨{ withBytes 0xFFC [0xF1, 0x55] ((State.reset.setPc 0xFFC).setI 0xFFE) with
      inbox := [.tick instrTick, .tick busyTick] }, _,
    ⟨rfl, by decide⟩, rfl, rfl, rfl, by decide, rfl, by decide, rfl, ⟨rfl, by decide⟩, rfl⟩

/-- K2: a jump to itself. -/
theorem witness_FinishedRunStaysFinished : ∃ s : State, s.finished = true ∧ NextTick busyTick s :=
  ⟨withMove (.tick busyTick) (withBytes 0x200 [0x12, 0x00] State.reset), by decide, nextTick_withMove _ _ (by decide)⟩

/-- Both clauses of CALL, and the one that a matching RET needs. -/
theorem witness_CallPushesReturnAddress :
    (withStack 15 [] State.reset).sp.val < 16 ∧ (withStack 16 [] State.reset).sp.val = 16 := by decide

theorem witness_CallThenRetComesBack : (withStack 15 [] State.reset).sp.val < 16 := by decide

/-- Both clauses of RET, the first at both ends. -/
theorem witness_RetPopsReturnAddress :
    (withStack 1 [] State.reset).sp.val = (0 : Fin 16).val + 1 ∧ (withStack 16 [] State.reset).sp.val = (15 : Fin 16).val + 1 ∧
    (withStack 0 [] State.reset).sp.val = 0 := by decide

/-- Equal and unequal operands. -/
theorem witness_SkipsOnImmediate :
    ((withRegs [(15, 0xFF)]).reg 15).toNat = (0xFF : Byte).toNat ∧ ((withRegs [(15, 0xFF)]).reg 15).toNat ≠ (0xFE : Byte).toNat := by
  decide

theorem witness_SkipsOnRegisters :
    ((withRegs [(1, 7)]).reg 1).toNat = ((withRegs [(1, 7)]).reg 1).toNat ∧
    ((withRegs [(1, 7)]).reg 1).toNat ≠ ((withRegs [(1, 7)]).reg 15).toNat ∧
    (1 : Fin 16) ≠ 0 ∧ (0x5121 : Half).toNat = 0x5000 + 0x100 * 1 + 0x10 * 2 + 1 ∧
    (0x9FFF : Half).toNat = 0x9000 + 0x100 * 15 + 0x10 * 15 + 15 := by decide

/-- A carry and none: the sums 256 and 255. -/
theorem witness_AddRegSetsCarry :
    255 < ((withRegs [(1, 0xFF), (2, 1)]).reg 1).toNat + ((withRegs [(1, 0xFF), (2, 1)]).reg 2).toNat ∧
    ¬ 255 < ((withRegs [(1, 0xFE), (2, 1)]).reg 1).toNat + ((withRegs [(1, 0xFE), (2, 1)]).reg 2).toNat := by decide

/-- Above by one, and equal. -/
theorem witness_SubtractionsSetStrictFlag :
    ((withRegs [(1, 6), (2, 5)]).reg 2).toNat < ((withRegs [(1, 6), (2, 5)]).reg 1).toNat ∧
    ¬ ((withRegs [(1, 5), (2, 5)]).reg 2).toNat < ((withRegs [(1, 5), (2, 5)]).reg 1).toNat := by decide

/-- The bit shifted out set and clear, at each end. -/
theorem witness_ShiftsSetBitShiftedOut :
    ((withRegs [(1, 0x01)]).reg 1).toNat % 2 = 1 ∧ ¬ ((withRegs [(1, 0x80)]).reg 1).toNat % 2 = 1 ∧
    128 ≤ ((withRegs [(1, 0x80)]).reg 1).toNat ∧ ¬ 128 ≤ ((withRegs [(1, 0x7F)]).reg 1).toNat := by decide

/-- A byte waiting, and none. -/
theorem witness_RndMasksADrawnByte :
    { State.reset with randIn := [0xA7] }.randIn = (0xA7 : Byte) :: [] ∧ State.reset.randIn = [] := ⟨rfl, rfl⟩

/-- X4: coordinates that wrap onto the cell, and a cell they miss. -/
theorem witness_XorPixelTogglesOneCell :
    ((3 : Fin 64).val = 67 % 64 ∧ (4 : Fin 32).val = 36 % 32) ∧ ¬ ((3 : Fin 64).val = 68 % 64 ∧ (4 : Fin 32).val = 36 % 32) := by
  decide

/-- G16, G17, G18: a sprite of no rows anywhere, the last byte of memory, and one byte too many; and a collision or none. -/
theorem witness_DrwXorsTheClippedSprite :
    ((0 : Fin 16).val = 0 ∨ (State.reset.setI 0xFFFF).i.toNat + 0 ≤ 0x1000) ∧
    ((1 : Fin 16).val = 0 ∨ (State.reset.setI 0x0FFF).i.toNat + 1 ≤ 0x1000) ∧
    (0 < (2 : Fin 16).val ∧ 0x1000 < (State.reset.setI 0x0FFF).i.toNat + 2) ∧
    (∃ (cx : Fin 64) (cy : Fin 32), (withLit [(0, 0)] State.reset).pixel cx cy = true ∧
      spriteAt (withLit [(0, 0)] State.reset) 0 1 5 cx.val cy.val = true) ∧
    (∀ (cx : Fin 64) (cy : Fin 32), State.reset.pixel cx cy = true → spriteAt State.reset 0 1 5 cx.val cy.val = false) := by
  refine ⟨by decide, by decide, by decide, ⟨0, 0, by decide, by decide⟩, fun cx cy h => ?_⟩
  exact absurd h (by simp [State.pixel, cell, State.reset])

/-- G23: the glyph 0 drawn twice on a clear screen; on a screen lit under it the second draw does not collide. -/
theorem witness_DrwTwiceRestoresTheScreen : ∃ s t again : State, s.i.toNat + 5 ≤ 0x1000 ∧ exec (.drw 0 1 5) s = .next t ∧
    again.reg 0 = s.reg 0 ∧ again.reg 1 = s.reg 1 ∧ SameBut [.v, .pc, .inbox] t again ∧
    (∃ (cx : Fin 64) (cy : Fin 32), s.pixel cx cy = false ∧ spriteAt s 0 1 5 cx.val cy.val = true) := by
  obtain ⟨t, ht⟩ : ∃ t, exec (.drw 0 1 5) State.reset = .next t := ⟨_, rfl⟩
  refine ⟨State.reset, t, { t with v := State.reset.v }, by decide, ht, rfl, rfl, ?_, 0, 0, by decide, by decide⟩
  intro p hp
  cases p <;> first
    | exact absurd (by decide) hp
    | rfl
    | exact fun _ => rfl
    | exact fun _ _ => rfl
    | exact ⟨rfl, rfl⟩

/-- The other clause of the same statement: a blank sprite row. -/
theorem witness_DrwTwiceWithoutCollision : ∀ (cx : Fin 64) (cy : Fin 32),
    spriteAt State.reset 0 1 0 cx.val cy.val = true → State.reset.pixel cx cy = true := by
  intro cx cy h
  unfold spriteAt at h
  rw [decide_eq_false (by omega)] at h
  exact absurd h (by simp)

/-- The largest value that names a key, and the first that names none. -/
theorem witness_KeySkips :
    ((withRegs [(2, 0x0F)]).reg 2).toNat = (15 : Key).val ∧ 0x0F < ((withRegs [(2, 0x10)]).reg 2).toNat := by decide

/-- The last legal `I` and the one after it. -/
theorem witness_BcdStoresThreeDigits :
    (State.reset.setI 0x0FFD).i.toNat + 3 ≤ 0x1000 ∧ 0x1000 < (State.reset.setI 0x0FFE).i.toNat + 3 := by decide

theorem witness_StmStoresTheRegisters :
    (State.reset.setI 0x0FF0).i.toNat + (15 : Reg).val ≤ 0xFFF ∧ 0xFFF < (State.reset.setI 0x0FF1).i.toNat + (15 : Reg).val := by
  decide

theorem witness_LdmLoadsTheRegisters :
    (State.reset.setI 0x0FFF).i.toNat + (0 : Reg).val ≤ 0xFFF ∧ 0xFFF < (State.reset.setI 0x1000).i.toNat + (0 : Reg).val := by
  decide

/-- Another state with the same `I` and memory, and other registers. -/
theorem witness_LdmRestoresWhatStmSaved : ∃ s t b : State, s.i.toNat + (15 : Reg).val ≤ 0xFFF ∧ exec (.stm 15) s = .next t ∧
    b.i = t.i ∧ (∀ a, Memory.get b.mem a = Memory.get t.mem a) ∧ b.reg 15 ≠ s.reg 15 :=
  ⟨State.reset.setI 0x0FF0, (State.reset.setI 0x0FF0).storeAtI ((State.reset.setI 0x0FF0).regsUpTo 15),
    ((State.reset.setI 0x0FF0).storeAtI ((State.reset.setI 0x0FF0).regsUpTo 15)).setV 15 0xFF,
    by decide, rfl, rfl, fun _ => rfl, by decide⟩

/-- A reserved word of every family that has one. -/
theorem witness_ReservedWordsDoNothing : reserved 0x0001 = true ∧ reserved 0x5121 = true ∧ reserved 0x8128 = true ∧
    reserved 0x9125 = true ∧ reserved 0xE19F = true ∧ reserved 0xF0FF = true := by decide

/-- Both moves on a key in either state. -/
theorem witness_PressAndRelease :
    nextMove (withMove (.press 15) State.reset) = .press 15 ∧ nextMove (withMove (.release 15) State.reset) = .release 15 ∧
    (State.reset.setKeys 0x8000).isPressed 15 = true ∧ State.reset.isPressed 15 = false := by decide

/-- The largest program that loads, and one byte more. -/
theorem witness_LoadCopiesTheProgram : ∀ n ∈ [3584, 3585], ∃ (bytes : List Byte) (s : State),
    nextMove s = .load bytes ∧ s.loadPort = .pending ∧ bytes.length = n :=
  fun n _ => ⟨List.replicate n 0x12, withMove (.load (List.replicate n 0x12)) State.reset, rfl, rfl, List.length_replicate⟩

theorem witness_ResetGivesTheResetState :
    nextMove (withMove .reset (State.reset.setRun (.halted .memOutOfBounds 0x0200 0x1000))) = .reset := rfl

end Sys2Proof.Tests
end

section
/-! PROOFS. Control transfer (`40_control.md`): JP, JP_V0, CALL and RET, behind the facts about encodings, frames and
faults that their statements speak of. -/

namespace Sys2Proof.Spec

open Sys2Proof.Machine

/-! ## Encodings -/

/-- A number is an encoding of `i` when it is the encoder's word and that word decodes back. -/
theorem encodes_of_encode {w : Nat} {i : Instr} (hw : (encode i).toNat = w) (hd : decode (encode i) = i) :
    Encodes w i := by
  subst hw
  exact ⟨(encode i).isLt, by rw [BitVec.ofNat_toNat, BitVec.setWidth_eq, hd]⟩

/-! ## Frames -/

/-- A frame is narrowed to other pieces by showing that what it drops is unchanged as well. -/
theorem SameBut.narrow {ps qs : List Piece} {s t : State} (h : SameBut qs s t)
    (hq : ∀ q ∈ qs, q ∉ ps → Same q s t) : SameBut ps s t := by
  intro p hp
  by_cases hpq : p ∈ qs
  · exact hq p hpq hp
  · exact h p hpq

/-- Writing the pieces that control transfer and faults write leaves every other piece. -/
theorem sameBut_controlWrite (s : State) (stack : Vector Half 16) (sp : Fin 17) (run : RunState) (pc : Half) :
    SameBut [.stack, .sp, .run, .pc] s { s with stack := stack, sp := sp, run := run, pc := pc } := by
  intro p hp
  cases p
  case stack | sp | run | pc => simp at hp
  all_goals simp [Same, State.reg, State.pixel]

theorem sameBut_setPc (s : State) (a : Half) : SameBut [.pc] s (s.setPc a) :=
  (sameBut_controlWrite s s.stack s.sp s.run a).narrow (by simp [Same])

theorem sameBut_raise (c : Cause) (a : Half) (s : State) : SameBut [.run, .pc] s (raise c a s) :=
  (sameBut_controlWrite s s.stack s.sp (.halted c (s.pc - 2) a) (s.pc - 2)).narrow (by simp [Same])

/-- An instruction's `raise` enters the fault at the instruction's own address (R175, R196). -/
theorem entersFault_raise (c : Cause) (a : Half) (s : State) :
    EntersFault c (s.pc - 2) a.toNat s (raise c a s) :=
  ⟨⟨a, rfl, raise_run c a s⟩, raise_pc c a s, sameBut_raise c a s⟩

end Sys2Proof.Spec

namespace Sys2Proof.Control

open Sys2Proof.Machine Sys2Proof.Spec

/-! ## The encodings of control transfer -/

theorem encodes_jp (nnn : BitVec 12) : Encodes (0x1000 + nnn.toNat) (.jp nnn) :=
  encodes_of_encode (wordNNN_toNat 0x1 nnn) (Laws.RoundTrip.jp nnn rfl)

theorem encodes_call (nnn : BitVec 12) : Encodes (0x2000 + nnn.toNat) (.call nnn) :=
  encodes_of_encode (wordNNN_toNat 0x2 nnn) (Laws.RoundTrip.call nnn rfl)

theorem encodes_jpV0 (nnn : BitVec 12) : Encodes (0xB000 + nnn.toNat) (.jpV0 nnn) :=
  encodes_of_encode (wordNNN_toNat 0xB nnn) (Laws.RoundTrip.jpV0 nnn rfl)

theorem encodes_ret (m : Byte) : Encodes (0x000E + 0x10 * m.toNat) (.ret m) := by
  have hw : (encode (.ret m)).toNat = m.toNat * 16 + 0xE := wordZ_toNat m 0xE
  exact encodes_of_encode (by omega) (Laws.RoundTrip.ret m rfl)

/-! ## The meanings of control transfer -/

theorem exec_jp (nnn : BitVec 12) (s : State) : exec (.jp nnn) s = .next (s.setPc (zextNNN nnn)) := rfl

theorem exec_jpV0 (nnn : BitVec 12) (s : State) :
    exec (.jpV0 nnn) s = .next (s.setPc (zextNNN nnn + zextByte (s.reg 0))) := rfl

theorem exec_call (nnn : BitVec 12) (s : State) : exec (.call nnn) s = .next (call (zextNNN nnn) s) := rfl

theorem exec_ret (m : Byte) (s : State) : exec (.ret m) s = .next (ret s) := rfl

/-- The target of JP_V0 is the unreduced sum: at most 0xFFF + 0xFF, it stays within the 16 bits of `PC` (R83). -/
theorem jpV0Target_toNat (nnn : BitVec 12) (b : Byte) : (zextNNN nnn + zextByte b).toNat = nnn.toNat + b.toNat := by
  have := nnn.isLt
  have := b.isLt
  rw [BitVec.toNat_add, zextNNN_toNat, zextByte_toNat]
  omega

/-! ## The stack operations -/

/-- With room on the stack, CALL writes the entry at `SP` and moves `SP` and `PC`, and that is all. -/
theorem call_post_of_room {s : State} (target : Half) (h : s.sp.val < 16) :
    (∀ j : Fin 16, (call target s).stack[j] = if j.val = s.sp.val then s.pc else s.stack[j]) ∧
      (call target s).sp.val = s.sp.val + 1 ∧ (call target s).pc = target ∧
      SameBut [.pc, .sp, .stack] s (call target s) := by
  rw [call_of_room target h]
  refine ⟨fun j => ?entry, rfl, rfl, ?frame⟩
  case entry => simp [Vector.getElem_set, eq_comm]
  case frame => exact (sameBut_controlWrite s _ _ s.run target).narrow (by simp [Same])

/-- With an entry on the stack, RET moves `SP` down onto it and `PC` to what it holds, and that is all. -/
theorem ret_post_of_entry {s : State} (j : Fin 16) (h : s.sp.val = j.val + 1) :
    (ret s).sp.val = j.val ∧ (ret s).pc = s.stack[j] ∧ SameBut [.pc, .sp] s (ret s) := by
  have hj : s.sp.val - 1 = j.val := by omega
  rw [ret_of_entry (by omega)]
  refine ⟨hj, ?entry, ?frame⟩
  case entry => simp [hj]
  case frame => exact (sameBut_controlWrite s s.stack _ s.run _).narrow (by simp [Same])

/-! ## The obligations -/

/-- Settles O25: by whether the stack has room. -/
theorem callPushesReturnAddress : Obligations.CallPushesReturnAddress := by
  intro nnn s
  refine ⟨encodes_call nnn, call (zextNNN nnn) s, exec_call nnn s, fun hroom => ?room, fun hfull => ?full⟩
  case room =>
    obtain ⟨hstack, hsp, hpc, hframe⟩ := call_post_of_room (zextNNN nnn) hroom
    exact ⟨hstack, hsp, by rw [hpc, zextNNN_toNat], hframe⟩
  case full =>
    rw [call_of_full _ hfull]
    exact entersFault_raise .stackOverflow 16 s

/-- Settles O26: by whether the stack has an entry. -/
theorem retPopsReturnAddress : Obligations.RetPopsReturnAddress := by
  intro m s
  refine ⟨encodes_ret m, ret s, exec_ret m s, ret_post_of_entry, fun hempty => ?empty⟩
  case empty =>
    rw [ret_of_empty hempty]
    exact entersFault_raise .stackUnderflow 0 s

/-- Settles O23. -/
theorem jpSetsPc : Obligations.JpSetsPc := fun nnn s =>
  ⟨encodes_jp nnn, s.setPc (zextNNN nnn), exec_jp nnn s, zextNNN_toNat nnn, sameBut_setPc s _⟩

/-- Settles O24: the 16-bit sum of the model is the sum on numbers. -/
theorem jpV0AddsV0 : Obligations.JpV0AddsV0 := fun nnn s =>
  ⟨encodes_jpV0 nnn, s.setPc (zextNNN nnn + zextByte (s.reg 0)), exec_jpV0 nnn s, jpV0Target_toNat nnn (s.reg 0),
    sameBut_setPc s _⟩

end Sys2Proof.Control
end

section
/-! PROOFS. Conditional skips (`41_skip.md`): SE_I, SNE_I, SE_R and SNE_R, behind the facts about the formats `XNN` and
`XY` and about the skip of R90 that other instructions share. -/

namespace Sys2Proof.Spec

/-! ## Encodings by format (R61) -/

/-- An instruction that the encoder writes in format `XNN` has the number its pattern shows. -/
theorem encodes_of_wordXNN {f : BitVec 4} {x : Reg} {nn : Byte} {k : Nat} {i : Instr}
    (he : encode i = wordXNN f x nn) (hk : f.toNat * 0x1000 = k) (hd : decode (encode i) = i) :
    Encodes (k + 0x100 * x.val + nn.toNat) i :=
  encodes_of_encode (by rw [he, wordXNN_toNat, ← hk]; ring) hd

/-- An instruction that the encoder writes in format `XY`, its low nibble fixed, has the number its pattern shows. -/
theorem encodes_of_wordXYN {f n : BitVec 4} {x y : Reg} {k : Nat} {i : Instr}
    (he : encode i = wordXYN f x y n) (hk : f.toNat * 0x1000 + n.toNat = k) (hd : decode (encode i) = i) :
    Encodes (k + 0x100 * x.val + 0x10 * y.val) i :=
  encodes_of_encode (by rw [he, wordXYN_toNat, ← hk]; ring) hd

end Sys2Proof.Spec

namespace Sys2Proof.Skip

open Sys2Proof.Machine Sys2Proof.Spec

/-! ## The skip (R90) -/

theorem skipIf_true (s : State) : skipIf true s = s.setPc (s.pc + 2) := rfl

theorem skipIf_false (s : State) : skipIf false s = s := rfl

theorem sameBut_skipIf (c : Bool) (s : State) : SameBut [.pc] s (skipIf c s) := by
  cases c
  case true => exact sameBut_setPc s (s.pc + 2)
  case false => exact sameBut_setPc s s.pc

/-- What an instruction that is a skip does, where `p` says that its condition holds and `q` that it fails. -/
theorem runs_of_skipIf {i : Instr} {s : State} {c : Bool} {p q : Prop} (hexec : exec i s = .next (skipIf c s))
    (hp : p → c = true) (hq : q → c = false) :
    Runs i s fun t => (p → t.pc = s.pc + 2) ∧ (q → t.pc = s.pc) ∧ SameBut [.pc] s t := by
  refine ⟨skipIf c s, hexec, fun h => ?taken, fun h => ?notTaken, sameBut_skipIf c s⟩
  case taken => rw [hp h, skipIf_true]; rfl
  case notTaken => rw [hq h, skipIf_false]

/-! ## Comparing bytes as numbers -/

theorem beq_of_toNat_eq {a b : Byte} (h : a.toNat = b.toNat) : (a == b) = true :=
  beq_iff_eq.mpr (BitVec.eq_of_toNat_eq h)

theorem beq_of_toNat_ne {a b : Byte} (h : a.toNat ≠ b.toNat) : (a == b) = false :=
  beq_eq_false_iff_ne.mpr (BitVec.toNat_ne.mpr h)

/-- A skip on equal bytes (R91, R93). -/
theorem runs_of_skipIf_beq {i : Instr} {s : State} {a b : Byte} (hexec : exec i s = .next (skipIf (a == b) s)) :
    Runs i s fun t => (a.toNat = b.toNat → t.pc = s.pc + 2) ∧ (a.toNat ≠ b.toNat → t.pc = s.pc) ∧ SameBut [.pc] s t :=
  runs_of_skipIf hexec beq_of_toNat_eq beq_of_toNat_ne

/-- A skip on different bytes (R92, R94). -/
theorem runs_of_skipIf_bne {i : Instr} {s : State} {a b : Byte} (hexec : exec i s = .next (skipIf (a != b) s)) :
    Runs i s fun t => (a.toNat ≠ b.toNat → t.pc = s.pc + 2) ∧ (a.toNat = b.toNat → t.pc = s.pc) ∧ SameBut [.pc] s t :=
  runs_of_skipIf hexec (fun h => congrArg not (beq_of_toNat_ne h)) (fun h => congrArg not (beq_of_toNat_eq h))

/-! ## The meanings of the skips -/

theorem exec_seImm (x : Reg) (nn : Byte) (s : State) : exec (.seImm x nn) s = .next (skipIf (s.reg x == nn) s) := rfl

theorem exec_sneImm (x : Reg) (nn : Byte) (s : State) : exec (.sneImm x nn) s = .next (skipIf (s.reg x != nn) s) := rfl

theorem exec_seReg (x y : Reg) (s : State) : exec (.seReg x y) s = .next (skipIf (s.reg x == s.reg y) s) := rfl

theorem exec_sneReg (x y : Reg) (s : State) : exec (.sneReg x y) s = .next (skipIf (s.reg x != s.reg y) s) := rfl

/-! ## The words of families 5 and 9 that are no skip (R65, R160) -/

theorem reserved_of_low_ne_zero {w : Half} (hf : opFamily w = 0x5 ∨ opFamily w = 0x9) (hn : (opN w).val ≠ 0) :
    reserved w = true := by
  rw [reserved_eq]
  obtain hf | hf := hf
  all_goals rw [hf]; exact bne_iff_ne.mpr hn

theorem decode_of_low_ne_zero {f : Nat} (hf : f = 0x5 ∨ f = 0x9) {x y : Reg} {n : Fin 16} (hn : n ≠ 0) {w : Half}
    (hw : w.toNat = f * 0x1000 + 0x100 * x.val + 0x10 * y.val + n.val) : decode w = .nop w := by
  have hfamily : opFamily w = f := by rw [opFamily_eq]; omega
  have hlow : (opN w).val = n.val := by rw [opN_val]; omega
  have hn : n.val ≠ 0 := Fin.val_ne_zero_iff.mpr hn
  exact decode_of_reserved (reserved_of_low_ne_zero (by rwa [hfamily]) (by rwa [hlow]))

/-! ## The obligations -/

/-- Settles O28: each is the shared skip, on the comparison of `V[x]` with `nn`. -/
theorem skipsOnImmediate : Obligations.SkipsOnImmediate := fun x nn s =>
  ⟨encodes_of_wordXNN rfl rfl (Laws.RoundTrip.seImm x nn rfl),
    encodes_of_wordXNN rfl rfl (Laws.RoundTrip.sneImm x nn rfl),
    runs_of_skipIf_beq (exec_seImm x nn s),
    runs_of_skipIf_bne (exec_sneImm x nn s)⟩

/-- Settles O29: each is the shared skip, on the comparison of `V[x]` with `V[y]`; the other words of the two families
are reserved. -/
theorem skipsOnRegisters : Obligations.SkipsOnRegisters := fun x y s =>
  ⟨encodes_of_wordXYN rfl rfl (Laws.RoundTrip.seReg x y rfl),
    encodes_of_wordXYN rfl rfl (Laws.RoundTrip.sneReg x y rfl),
    runs_of_skipIf_beq (exec_seReg x y s),
    runs_of_skipIf_bne (exec_sneReg x y s),
    fun _ hn => ⟨fun _ => decode_of_low_ne_zero (.inl rfl) hn, fun _ => decode_of_low_ne_zero (.inr rfl) hn⟩⟩

end Sys2Proof.Skip
end

section
/-! PROOFS. Loads of constants, register arithmetic and the writes of `I` (`42_load_alu.md`, and FONT of `43_display.md`):
LD_I, ADD_I, MOV, OR, AND, XOR, ADD_R, SUB, SUBN, LDI, ADDI and FONT, behind the facts about a write of registers, of a
result with its flag, and of `I` that other instructions share. -/

namespace Sys2Proof.Spec

open Sys2Proof.Machine

/-! ## Encodings with a fixed low byte (R61) -/

/-- An instruction that the encoder writes in format `XNN`, its low byte fixed, has the number its pattern shows. -/
theorem encodes_of_wordXNN_fixed {f : BitVec 4} {x : Reg} {nn : Byte} {k : Nat} {i : Instr}
    (he : encode i = wordXNN f x nn) (hk : f.toNat * 0x1000 + nn.toNat = k) (hd : decode (encode i) = i) :
    Encodes (k + 0x100 * x.val) i :=
  encodes_of_encode (by rw [he, wordXNN_toNat, ← hk]; ring) hd

/-! ## Frames of register writes -/

/-- Writing the data registers and `I` leaves every other piece. -/
theorem sameBut_registerWrite (s : State) (v : Vector Byte 16) (i : Half) :
    SameBut [.v, .i] s { s with v := v, i := i } := by
  intro p hp
  cases p
  case v | i => simp at hp
  all_goals simp [Same, State.pixel]

theorem sameBut_setV (s : State) (x : Reg) (b : Byte) : SameBut [.v] s (s.setV x b) :=
  (sameBut_registerWrite s (s.v.set x b) s.i).narrow (by simp [Same])

theorem sameBut_setResultFlag (s : State) (x : Reg) (b : Byte) (c : Bool) :
    SameBut [.v] s (s.setResultFlag x b c) :=
  (sameBut_registerWrite s ((s.v.set x b).set vf (flagByte c)) s.i).narrow (by simp [Same])

theorem sameBut_setI (s : State) (a : Half) : SameBut [.i] s (s.setI a) :=
  (sameBut_registerWrite s s.v a).narrow (by simp [Same, State.reg])

/-! ## Instructions that are one write -/

theorem setsReg_setV (s : State) (x : Reg) (b : Byte) : SetsReg x b.toNat s (s.setV x b) := by
  refine ⟨?destination, fun r hr => ?other, sameBut_setV s x b⟩
  case destination => rw [State.reg_setV, if_pos rfl]
  case other => rw [State.reg_setV, if_neg (Ne.symm hr)]

/-- What an instruction that writes one register does, the byte it writes read as a number. -/
theorem runs_of_setV {i : Instr} {s : State} {x : Reg} {b : Byte} {n : Nat} (hexec : exec i s = .next (s.setV x b))
    (hb : b.toNat = n) : Runs i s (SetsReg x n s) :=
  ⟨s.setV x b, hexec, hb ▸ setsReg_setV s x b⟩

/-- What an instruction that writes a result and then its flag does (R100), the result read as a number and the flag as
the condition it tells. -/
theorem runs_of_setResultFlag {i : Instr} {s : State} {x : Reg} {b : Byte} {c : Bool} {n : Nat} {p : Prop}
    (hexec : exec i s = .next (s.setResultFlag x b c)) (hb : b.toNat = n) (hc : c = true ↔ p) :
    Runs i s (SetsRegFlag x n p s) := by
  have hvf : (s.setResultFlag x b c).reg 15 = flagByte c := (State.reg_setResultFlag s x vf b c).trans (if_pos rfl)
  refine ⟨_, hexec, ⟨fun h => ?set, fun h => ?clear⟩, fun hx => ?result, fun r hrx hrf => ?other,
    sameBut_setResultFlag s x b c⟩
  case set => rw [hvf, hc.mpr h]; rfl
  case clear => rw [hvf, Bool.eq_false_iff.mpr (mt hc.mp h)]; rfl
  case result => rw [State.reg_setResultFlag, if_neg (show x ≠ vf from hx), if_pos rfl, hb]
  case other => rw [State.reg_setResultFlag, if_neg (show r ≠ vf from hrf), if_neg (Ne.symm hrx)]

/-- What an instruction that writes `I` does, the address it writes read as a number. -/
theorem runs_of_setI {i : Instr} {s : State} {a : Half} {n : Nat} (hexec : exec i s = .next (s.setI a))
    (ha : a.toNat = n) : Runs i s fun t => t.i.toNat = n ∧ SameBut [.i] s t :=
  ⟨s.setI a, hexec, ha, sameBut_setI s a⟩

end Sys2Proof.Spec

namespace Sys2Proof.LoadAlu

open Sys2Proof.Machine Sys2Proof.Spec

/-! ## The meanings -/

section Meanings
variable (x y : Reg) (nn : Byte) (nnn : BitVec 12) (s : State)

theorem exec_ldImm : exec (.ldImm x nn) s = .next (s.setV x nn) := rfl

theorem exec_addImm : exec (.addImm x nn) s = .next (s.setV x (s.reg x + nn)) := rfl

theorem exec_mov : exec (.mov x y) s = .next (s.setV x (s.reg y)) := rfl

theorem exec_or : exec (.or x y) s = .next (s.setV x (s.reg x ||| s.reg y)) := rfl

theorem exec_and : exec (.and x y) s = .next (s.setV x (s.reg x &&& s.reg y)) := rfl

theorem exec_xor : exec (.xor x y) s = .next (s.setV x (s.reg x ^^^ s.reg y)) := rfl

theorem exec_addReg :
    exec (.addReg x y) s = .next (s.setResultFlag x (s.reg x + s.reg y) (carry (s.reg x) (s.reg y))) := rfl

/-- The configured flag on equal operands is 0 (U6). -/
theorem exec_sub :
    exec (.sub x y) s = .next (s.setResultFlag x (s.reg x - s.reg y) (above false (s.reg x) (s.reg y))) := rfl

theorem exec_subn :
    exec (.subn x y) s = .next (s.setResultFlag x (s.reg y - s.reg x) (above false (s.reg y) (s.reg x))) := rfl

theorem exec_ldIndex : exec (.ldIndex nnn) s = .next (s.setI (zextNNN nnn)) := rfl

theorem exec_addIndex : exec (.addIndex x) s = .next (s.setI (s.i + zextByte (s.reg x))) := rfl

theorem exec_font : exec (.font x) s = .next (s.setI (BitVec.ofNat 16 ((s.reg x).toNat * 5))) := rfl

end Meanings

/-! ## Results and flags as numbers -/

theorem carry_iff (a b : Byte) : carry a b = true ↔ 255 < a.toNat + b.toNat := decide_eq_true_iff

/-- On the strict reading, equal operands do not set the flag of a subtraction (R109, R111). -/
theorem above_false_iff (a b : Byte) : above false a b = true ↔ b.toNat < a.toNat := by
  rw [above, Bool.false_and, Bool.or_false, decide_eq_true_iff]

/-- The wrapped difference of bytes, written without a negative number. -/
theorem byteSub_toNat (a b : Byte) : (a - b).toNat = (a.toNat + 256 - b.toNat) % 256 := by
  have := b.isLt
  rw [BitVec.toNat_sub]
  omega

/-- The sum in `I` wraps at 65536, not at 4096 (R114). -/
theorem indexSum_toNat (a : Half) (b : Byte) : (a + zextByte b).toNat = (a.toNat + b.toNat) % 65536 := by
  rw [BitVec.toNat_add, zextByte_toNat]

/-- A glyph's address, at most 255 * 5, fits the 16 bits of `I` (R125). -/
theorem glyphAddress_toNat (b : Byte) : (BitVec.ofNat 16 (b.toNat * 5)).toNat = b.toNat * 5 := by
  have := b.isLt
  rw [BitVec.toNat_ofNat]
  omega

/-! ## The obligations -/

/-- Settles O32: the result is the wrapped sum, the flag the carry. -/
theorem addRegSetsCarry : Obligations.AddRegSetsCarry := fun x y s =>
  ⟨encodes_of_wordXYN rfl rfl (Laws.RoundTrip.addReg x y rfl),
    runs_of_setResultFlag (exec_addReg x y s) (BitVec.toNat_add _ _) (carry_iff _ _)⟩

/-- Settles O33: both are the wrapped difference with the strict comparison, the operands exchanged in SUBN. -/
theorem subtractionsSetStrictFlag : Obligations.SubtractionsSetStrictFlag := fun x y s =>
  ⟨encodes_of_wordXYN rfl rfl (Laws.RoundTrip.sub x y rfl),
    encodes_of_wordXYN rfl rfl (Laws.RoundTrip.subn x y rfl),
    runs_of_setResultFlag (exec_sub x y s) (byteSub_toNat _ _) (above_false_iff _ _),
    runs_of_setResultFlag (exec_subn x y s) (byteSub_toNat _ _) (above_false_iff _ _)⟩

/-- Settles O30: each writes one register. -/
theorem immediateLoadAndAdd : Obligations.ImmediateLoadAndAdd := fun x nn s =>
  ⟨encodes_of_wordXNN rfl rfl (Laws.RoundTrip.ldImm x nn rfl),
    encodes_of_wordXNN rfl rfl (Laws.RoundTrip.addImm x nn rfl),
    runs_of_setV (exec_ldImm x nn s) rfl,
    runs_of_setV (exec_addImm x nn s) (BitVec.toNat_add _ _)⟩

/-- Settles O31: each writes one register, and the bitwise operations on bytes are those on numbers. -/
theorem copyAndLogic : Obligations.CopyAndLogic := fun x y s =>
  ⟨encodes_of_wordXYN rfl rfl (Laws.RoundTrip.mov x y rfl),
    encodes_of_wordXYN rfl rfl (Laws.RoundTrip.or x y rfl),
    encodes_of_wordXYN rfl rfl (Laws.RoundTrip.and x y rfl),
    encodes_of_wordXYN rfl rfl (Laws.RoundTrip.xor x y rfl),
    runs_of_setV (exec_mov x y s) rfl,
    runs_of_setV (exec_or x y s) (BitVec.toNat_or _ _),
    runs_of_setV (exec_and x y s) (BitVec.toNat_and _ _),
    runs_of_setV (exec_xor x y s) (BitVec.toNat_xor _ _)⟩

/-- Settles O35: each writes `I`. -/
theorem indexRegisterWrites : Obligations.IndexRegisterWrites := fun x nnn s =>
  ⟨encodes_of_encode (wordNNN_toNat 0xA nnn) (Laws.RoundTrip.ldIndex nnn rfl),
    encodes_of_wordXNN_fixed rfl rfl (Laws.RoundTrip.addIndex x rfl),
    encodes_of_wordXNN_fixed rfl rfl (Laws.RoundTrip.font x rfl),
    runs_of_setI (exec_ldIndex nnn s) (zextNNN_toNat nnn),
    runs_of_setI (exec_addIndex x s) (indexSum_toNat s.i (s.reg x)),
    runs_of_setI (exec_font x s) (glyphAddress_toNat (s.reg x))⟩

end Sys2Proof.LoadAlu
end

section
/-! PROOFS. The framebuffer (`43_display.md`): CLS and the primitive `xor_pixel`, behind the frame of a framebuffer write
that other instructions share. -/

namespace Sys2Proof.Spec

open Sys2Proof.Machine

/-! ## The frame of a framebuffer write -/

theorem sameBut_setFb (s : State) (f : Vector (BitVec 64) 32) : SameBut [.fb] s (s.setFb f) := by
  intro p hp
  cases p
  case fb => simp at hp
  all_goals simp [Same]

end Sys2Proof.Spec

namespace Sys2Proof.Display

open Sys2Proof.Machine Sys2Proof.Spec

/-! ## CLS (R120, R121) -/

theorem encodes_cls (m : Byte) : Encodes (0x10 * m.toNat) (.cls m) := by
  have hw : (encode (.cls m)).toNat = m.toNat * 16 + 0x0 := wordZ_toNat m 0x0
  exact encodes_of_encode (by omega) (Laws.RoundTrip.cls m rfl)

theorem exec_cls (m : Byte) (s : State) : exec (.cls m) s = .next (s.setFb clearedFb) := rfl

/-! ## The cells of `xor_pixel` (R122) -/

theorem cell_xorPixel_of_addressed (f : Vector (BitVec 64) 32) {x y cx cy : Nat} (value : Bool)
    (h : cx = x % 64 ∧ cy = y % 32) : cell (xorPixel f x y value).1 cx cy = (cell f cx cy ^^ value) := by
  rw [cell_xorPixel f x y value cx cy (by omega) (by omega), decide_eq_true h, Bool.and_true]

theorem cell_xorPixel_of_not_addressed (f : Vector (BitVec 64) 32) {x y cx cy : Nat} (value : Bool) (hx : cx < 64)
    (hy : cy < 32) (h : ¬ (cx = x % 64 ∧ cy = y % 32)) : cell (xorPixel f x y value).1 cx cy = cell f cx cy := by
  rw [cell_xorPixel f x y value cx cy hx hy, decide_eq_false h, Bool.and_false, Bool.xor_false]

/-! ## The obligations -/

/-- Settles O38: by whether the cell is the one that the wrapped coordinates address. -/
theorem xorPixelTogglesOneCell : Obligations.XorPixelTogglesOneCell := by
  intro f x y value cx cy
  refine ⟨fun haddr => ⟨cell_xorPixel_of_addressed f value haddr, ?hit⟩,
    cell_xorPixel_of_not_addressed f value cx.isLt cy.isLt⟩
  case hit => rw [xorPixel_hit, haddr.1, haddr.2]

/-- Settles O37: CLS is one write of the framebuffer, and every cell of the cleared one reads 0. -/
theorem clsClearsEveryPixel : Obligations.ClsClearsEveryPixel := fun m s =>
  ⟨encodes_cls m, s.setFb clearedFb, exec_cls m s, fun x y => cell_clearedFb x.val y.val, sameBut_setFb s clearedFb⟩

end Sys2Proof.Display
end

section
/-! PROOFS. The timers (`45_timer.md`): LD_DT, ST_DT and ST_ST, behind the frame of a timer write and the tone as a number. -/

namespace Sys2Proof.Spec

open Sys2Proof.Machine

/-! ## Frames of timer writes -/

/-- Writing the two timers leaves every other piece. -/
theorem sameBut_timerWrite (s : State) (dt st : Byte) : SameBut [.dt, .st] s { s with dt := dt, st := st } := by
  intro p hp
  cases p
  case dt | st => simp at hp
  all_goals simp [Same, State.reg, State.pixel]

theorem sameBut_setDt (s : State) (b : Byte) : SameBut [.dt] s (s.setDt b) :=
  (sameBut_timerWrite s b s.st).narrow (by simp [Same])

theorem sameBut_setSt (s : State) (b : Byte) : SameBut [.st] s (s.setSt b) :=
  (sameBut_timerWrite s s.dt b).narrow (by simp [Same])

/-! ## The tone -/

/-- `TONE` is 1 exactly if `ST` is not 0, read as a number (R143). -/
theorem tone_iff (s : State) : s.tone = true ↔ s.st.toNat ≠ 0 :=
  bne_iff_ne.trans BitVec.toNat_ne

end Sys2Proof.Spec

namespace Sys2Proof.Timer

open Sys2Proof.Machine Sys2Proof.Spec

/-! ## The meanings -/

section Meanings
variable (x : Reg) (s : State)

theorem exec_ldDt : exec (.ldDt x) s = .next (s.setV x s.dt) := rfl

theorem exec_stDt : exec (.stDt x) s = .next (s.setDt (s.reg x)) := rfl

theorem exec_stSt : exec (.stSt x) s = .next (s.setSt (s.reg x)) := rfl

end Meanings

/-! ## The obligation -/

/-- Settles O43: each is one write, of `V[x]` or of one timer, and the tone is a function of `ST` alone. -/
theorem timerReadsAndWrites : Obligations.TimerReadsAndWrites := fun x s =>
  ⟨encodes_of_wordXNN_fixed rfl rfl (Laws.RoundTrip.ldDt x rfl),
    encodes_of_wordXNN_fixed rfl rfl (Laws.RoundTrip.stDt x rfl),
    encodes_of_wordXNN_fixed rfl rfl (Laws.RoundTrip.stSt x rfl),
    runs_of_setV (exec_ldDt x s) rfl,
    ⟨s.setDt (s.reg x), exec_stDt x s, State.setDt_dt s _, sameBut_setDt s _⟩,
    ⟨s.setSt (s.reg x), exec_stSt x s, State.setSt_st s _, tone_iff (s.setSt (s.reg x)), sameBut_setSt s _⟩⟩

end Sys2Proof.Timer
end

section
/-! PROOFS. The memory instructions (`46_memory_ops.md`): BCD, STM and LDM, behind the facts about a store at `I`, a load of
registers and an access whose range is checked first that other instructions share. -/

namespace Sys2Proof.Spec

open Sys2Proof.Machine

/-! ## Frames of a store at `I` and of a load of registers -/

theorem sameBut_setMem (s : State) (m : List Host.Cell) : SameBut [.mem] s (s.setMem m) := by
  intro p hp
  cases p
  case mem => simp at hp
  all_goals simp [Same, State.pixel]

theorem sameBut_storeAtI (s : State) (bs : List Byte) : SameBut [.mem] s (s.storeAtI bs) :=
  sameBut_setMem s (Memory.setBytes s.mem s.i.toNat bs)

theorem sameBut_loadRegs (s : State) (x : Reg) (bs : List Byte) : SameBut [.v] s (s.loadRegs x bs) :=
  (sameBut_registerWrite s (s.loadRegs x bs).v s.i).narrow (by simp [Same])

/-! ## Reading memory after a store at `I` (R43, R150) -/

theorem get_storeAtI_inside (s : State) {bs : List Byte} {k : Nat} (h : k < bs.length) :
    Memory.get (s.storeAtI bs).mem (s.i.toNat + k) = bs.getD k 0 := by
  rw [State.storeAtI_mem, Memory.get_setBytes, if_pos (by omega), Nat.add_sub_cancel_left]

theorem get_storeAtI_outside (s : State) {bs : List Byte} {a : Nat} (h : a < s.i.toNat ∨ s.i.toNat + bs.length ≤ a) :
    Memory.get (s.storeAtI bs).mem a = Memory.get s.mem a := by
  rw [State.storeAtI_mem, Memory.get_setBytes, if_neg (by omega)]

/-! ## Accesses whose range is checked first (R46, R190) -/

/-- The fault of a data access records the first bad address. -/
theorem entersFault_memOutOfBounds (s : State) :
    EntersFault .memOutOfBounds (s.pc - 2) (max s.i.toNat 0x1000) s
      (raise .memOutOfBounds (firstBadAddress s.i) s) :=
  firstBadAddress_toNat s.i ▸ entersFault_raise .memOutOfBounds (firstBadAddress s.i) s

/-- What an instruction that is one checked access of `len` bytes at `I` does, where `p` says that the range is legal and
`q` that it is not: the access meets `post`, or the fault is entered. -/
theorem runs_of_withRange {i : Instr} {len : Nat} {s ok : State} {p q : Prop} {post : State → Prop}
    (hexec : exec i s = .next (withRange len s ok)) (hp : p → s.i.toNat + len ≤ 0x1000)
    (hq : q → 0 < len ∧ 0x1000 < s.i.toNat + len) (hok : post ok) :
    Runs i s fun t =>
      (p → post t) ∧ (q → EntersFault .memOutOfBounds (s.pc - 2) (max s.i.toNat 0x1000) s t) := by
  refine ⟨withRange len s ok, hexec, fun h => ?legal, fun h => ?illegal⟩
  case legal =>
    rwa [withRange_of_legal ((outOfRange_eq_false_iff _ _).mpr (.inr (hp h)))]
  case illegal =>
    obtain ⟨hlen, hend⟩ := hq h
    rw [withRange_of_illegal ((outOfRange_iff _ _).mpr ⟨hlen, by omega⟩)]
    exact entersFault_memOutOfBounds s

end Sys2Proof.Spec

namespace Sys2Proof.MemoryOps

open Sys2Proof.Machine Sys2Proof.Spec

/-! ## The meanings -/

section Meanings
variable (x : Reg) (s : State)

theorem exec_bcd : exec (.bcd x) s = .next (withRange 3 s (s.storeAtI (bcdDigits (s.reg x)))) := rfl

theorem exec_stm : exec (.stm x) s = .next (withRange (x.val + 1) s (s.storeAtI (s.regsUpTo x))) := rfl

theorem exec_ldm :
    exec (.ldm x) s = .next (withRange (x.val + 1) s (s.loadRegs x (s.bytesAtI (x.val + 1)))) := rfl

end Meanings

/-! ## The digits of BCD (R151) -/

theorem bcdDigits_length (b : Byte) : (bcdDigits b).length = 3 := rfl

/-- Every digit fits its byte. -/
theorem bcdDigits_toNat (b : Byte) :
    ((bcdDigits b).getD 0 0).toNat = b.toNat / 100 ∧ ((bcdDigits b).getD 1 0).toNat = b.toNat / 10 % 10 ∧
      ((bcdDigits b).getD 2 0).toNat = b.toNat % 10 := by
  have := b.isLt
  refine ⟨?hundreds, ?tens, ?ones⟩
  all_goals exact Nat.mod_eq_of_lt (by omega)

/-! ## Reading a block of registers back -/

/-- STM leaves `V[k]` at `I + k` (R152). -/
theorem get_storeAtI_regsUpTo (s : State) {x k : Reg} (hk : k.val ≤ x.val) :
    Memory.get (s.storeAtI (s.regsUpTo x)).mem (s.i.toNat + k.val) = s.reg k := by
  rw [get_storeAtI_inside s (by rw [regsUpTo_length]; omega), regsUpTo_getD s x k hk]

/-- LDM leaves the byte at `I + k` in `V[k]` (R153). -/
theorem reg_loadRegs_bytesAtI (s : State) {x k : Reg} (hk : k.val ≤ x.val) :
    (s.loadRegs x (s.bytesAtI (x.val + 1))).reg k = Memory.get s.mem (s.i.toNat + k.val) := by
  rw [reg_loadRegs, if_pos hk, State.bytesAtI, Memory.getBytes_getD _ _ _ _ (by omega)]

theorem reg_loadRegs_of_gt (s : State) {x k : Reg} (bs : List Byte) (hk : x.val < k.val) :
    (s.loadRegs x bs).reg k = s.reg k := by
  rw [reg_loadRegs, if_neg (by omega)]

/-! ## The obligations -/

/-- Settles O44: a checked store of the three digits. -/
theorem bcdStoresThreeDigits : Obligations.BcdStoresThreeDigits := by
  intro x s
  obtain ⟨hundreds, tens, ones⟩ := bcdDigits_toNat (s.reg x)
  have stored (k : Nat) (hk : k < 3) := congrArg BitVec.toNat (get_storeAtI_inside s (bs := bcdDigits (s.reg x)) hk)
  refine ⟨encodes_of_wordXNN_fixed rfl rfl (Laws.RoundTrip.bcd x rfl),
    runs_of_withRange (exec_bcd x s) id (fun h => ⟨by decide, h⟩) ⟨(stored 0 (by decide)).trans hundreds,
      (stored 1 (by decide)).trans tens, (stored 2 (by decide)).trans ones, fun a ha => ?outside, sameBut_storeAtI s _⟩⟩
  case outside => exact get_storeAtI_outside s (by rw [bcdDigits_length]; omega)

/-- Settles O45: a checked store of the registers up to `V[x]`. -/
theorem stmStoresTheRegisters : Obligations.StmStoresTheRegisters := by
  intro x s
  refine ⟨encodes_of_wordXNN_fixed rfl rfl (Laws.RoundTrip.stm x rfl),
    runs_of_withRange (exec_stm x s) (by omega) (by omega) ⟨fun k hk => get_storeAtI_regsUpTo s hk, fun a ha => ?outside,
      sameBut_storeAtI s _⟩⟩
  case outside => exact get_storeAtI_outside s (by rw [regsUpTo_length]; omega)

/-- Settles O46: a checked load of the registers up to `V[x]`. -/
theorem ldmLoadsTheRegisters : Obligations.LdmLoadsTheRegisters := fun x s =>
  ⟨encodes_of_wordXNN_fixed rfl rfl (Laws.RoundTrip.ldm x rfl),
    runs_of_withRange (exec_ldm x s) (by omega) (by omega) ⟨fun _ hk => reg_loadRegs_bytesAtI s hk,
      fun _ hk => reg_loadRegs_of_gt s _ hk, sameBut_loadRegs s x _⟩⟩

end Sys2Proof.MemoryOps
end

section
/-! PROOFS. Reserved encodings (`47_nop.md`): NOP, behind the frame of an instruction that leaves the state as it is. -/

namespace Sys2Proof.Spec

open Sys2Proof.Machine

theorem same_refl (p : Piece) (s : State) : Same p s s := by
  cases p
  all_goals simp [Same]

theorem sameBut_refl (ps : List Piece) (s : State) : SameBut ps s s := fun p _ => same_refl p s

end Sys2Proof.Spec

namespace Sys2Proof.Nop

open Sys2Proof.Machine Sys2Proof.Spec

/-! ## The meaning of NOP -/

theorem exec_nop (op : Half) (s : State) : exec (.nop op) s = .next s := rfl

/-! ## The obligation -/

/-- Settles O48: the decoder keeps a reserved word as a NOP, and a NOP answers the state it was given. -/
theorem reservedWordsDoNothing : Obligations.ReservedWordsDoNothing := fun op s hreserved =>
  ⟨decode_of_reserved hreserved, s, exec_nop op s, sameBut_refl [] s⟩

end Sys2Proof.Nop
end

section
/-! PROOFS. Encoding and decoding (`30_encoding.md`): the two round trips and the agreement with the opcode map of R66. -/

namespace Sys2Proof.Encoding

open Sys2Proof.Machine Sys2Proof.Spec

/-! ## The round trips -/

/-- Decoding the encoding of a well-formed instruction gives it back. -/
theorem decode_encode (i : Instr) : Laws.RoundTrip.Statement i := by
  cases i with
  | cls m => exact Laws.RoundTrip.cls m
  | ret m => exact Laws.RoundTrip.ret m
  | jp nnn => exact Laws.RoundTrip.jp nnn
  | call nnn => exact Laws.RoundTrip.call nnn
  | seImm x nn => exact Laws.RoundTrip.seImm x nn
  | sneImm x nn => exact Laws.RoundTrip.sneImm x nn
  | seReg x y => exact Laws.RoundTrip.seReg x y
  | ldImm x nn => exact Laws.RoundTrip.ldImm x nn
  | addImm x nn => exact Laws.RoundTrip.addImm x nn
  | mov x y => exact Laws.RoundTrip.mov x y
  | or x y => exact Laws.RoundTrip.or x y
  | and x y => exact Laws.RoundTrip.and x y
  | xor x y => exact Laws.RoundTrip.xor x y
  | addReg x y => exact Laws.RoundTrip.addReg x y
  | sub x y => exact Laws.RoundTrip.sub x y
  | shr x y => exact Laws.RoundTrip.shr x y
  | subn x y => exact Laws.RoundTrip.subn x y
  | shl x y => exact Laws.RoundTrip.shl x y
  | sneReg x y => exact Laws.RoundTrip.sneReg x y
  | ldIndex nnn => exact Laws.RoundTrip.ldIndex nnn
  | jpV0 nnn => exact Laws.RoundTrip.jpV0 nnn
  | rnd x nn => exact Laws.RoundTrip.rnd x nn
  | drw x y n => exact Laws.RoundTrip.drw x y n
  | skp x => exact Laws.RoundTrip.skp x
  | sknp x => exact Laws.RoundTrip.sknp x
  | ldDt x => exact Laws.RoundTrip.ldDt x
  | waitKey x => exact Laws.RoundTrip.waitKey x
  | stDt x => exact Laws.RoundTrip.stDt x
  | stSt x => exact Laws.RoundTrip.stSt x
  | addIndex x => exact Laws.RoundTrip.addIndex x
  | font x => exact Laws.RoundTrip.font x
  | bcd x => exact Laws.RoundTrip.bcd x
  | stm x => exact Laws.RoundTrip.stm x
  | ldm x => exact Laws.RoundTrip.ldm x
  | nop op => exact Laws.RoundTrip.nop op

/-- Settles O2: the two bytes are the encoder's word again, and that word decodes to the instruction. -/
theorem decodeOfEncodedBytes : Obligations.DecodeOfEncodedBytes := by
  intro i rest hwf
  rw [decodeBytes_encodeBytes, decode_encode i hwf]

/-- Settles O3: both halves follow from what a word's fields are when it decodes to an instruction. -/
theorem encodeOfDecodedWord : Obligations.EncodeOfDecodedWord := fun w =>
  ⟨wf_of_decoded (decode_spec w), encode_decode w⟩

/-- Settles O1: the decoder is run on each word. -/
theorem specWordsDecode : Obligations.SpecWordsDecode := by
  unfold Obligations.SpecWordsDecode
  decide

/-! ## The opcode map (R66) -/

/-- A word lies in a row of the opcode map, by the fields that the row's mask keeps. -/
def Fits (r : Row) (w : Half) : Prop :=
  opFamily w = r.value.toNat / 4096 ∧ (r.mask = 0xF00F → (opN w).val = r.value.toNat % 16) ∧
    (r.mask = 0xF0FF → (opNN w).toNat = r.value.toNat % 256)

/-- Every row of the map has one of three masks, and a match value with no bit outside its mask. -/
theorem opcodeMap_masks : ∀ r ∈ opcodeMap,
    (r.mask = 0xF000 ∧ r.value = r.value.extractLsb' 12 4 ++ 0#12) ∨
    (r.mask = 0xF00F ∧ r.value = r.value.extractLsb' 12 4 ++ 0#8 ++ r.value.extractLsb' 0 4) ∨
    (r.mask = 0xF0FF ∧ r.value = r.value.extractLsb' 12 4 ++ 0#4 ++ r.value.extractLsb' 0 8) := by
  decide

theorem and_mask_eq_iff_fits {r : Row} (hr : r ∈ opcodeMap) (w : Half) : w &&& r.mask = r.value ↔ Fits r w := by
  have hfamily : (r.value.extractLsb' 12 4).toNat = r.value.toNat / 4096 := opFamily_eq r.value
  have hlow : (r.value.extractLsb' 0 4).toNat = r.value.toNat % 16 := opN_val r.value
  have hbyte : (r.value.extractLsb' 0 8).toNat = r.value.toNat % 256 := opNN_toNat r.value
  obtain ⟨hmask, hvalue⟩ | ⟨hmask, hvalue⟩ | ⟨hmask, hvalue⟩ := opcodeMap_masks r hr
  · rw [hmask, hvalue, and_F000, hfamily]
    simp [Fits, hmask]
  · rw [hmask, hvalue, and_F00F, hfamily, hlow]
    simp [Fits, hmask]
  · rw [hmask, hvalue, and_F0FF, hfamily, hbyte]
    simp [Fits, hmask]

/-- A word that lies in a row decodes to the row's mnemonic. -/
theorem mnemonic_of_fits {w : Half} : ∀ r ∈ opcodeMap, Fits r w → mnemonic (decode w) = r.name := by
  simp only [opcodeMap, List.cons_append, List.nil_append, List.forall_mem_cons, List.not_mem_nil, IsEmpty.forall_iff,
    implies_true, and_true, Fits]
  and_intros
  all_goals
    intro hfields
    simp [decode, decodeFamily0, decodeFamily8, decodeFamilyE, decodeFamilyF, Config.family0Exact, mnemonic,
      Fin.ext_iff, -Fin.val_eq_zero_iff, hfields]

theorem exists_row_of_find {name : String} {r : Row} {w : Half}
    (hfind : opcodeMap.find? (fun r => r.name == name) = some r) (hfits : Fits r w) :
    ∃ r ∈ opcodeMap, r.name = name ∧ Fits r w :=
  have hname := List.find?_some hfind
  ⟨r, List.mem_of_find?_eq_some hfind, beq_iff_eq.mp hname, hfits⟩

/-- What a word decodes to is a NOP or has a row in which the word lies. -/
theorem fits_of_decoded {w : Half} {i : Instr} (h : Decoded w i) :
    mnemonic i = "NOP" ∨ ∃ r ∈ opcodeMap, r.name = mnemonic i ∧ Fits r w := by
  cases i
  case nop => exact .inl rfl
  all_goals
    simp only [Decoded] at h
    exact .inr (exists_row_of_find rfl (by simp [Fits, h]))

theorem opcodeMap_names : ∀ r ∈ opcodeMap, r.name ≠ "NOP" ∧ ∀ r' ∈ opcodeMap, r'.name = r.name → r' = r := by
  decide

/-- Settles O4: a word that lies in a row decodes to its mnemonic, a word that decodes to another mnemonic than NOP lies in
a row of that name, and no two rows have one name. -/
theorem decoderAgreesWithOpcodeMap : Obligations.DecoderAgreesWithOpcodeMap := by
  intro w
  refine ⟨fun r hr => ⟨fun hname => ?row, fun hmatch => ?name⟩, fun hnop r hr hmatch => ?noRow, fun hnone => ?nop⟩
  case name => exact mnemonic_of_fits r hr ((and_mask_eq_iff_fits hr w).mp hmatch)
  case row =>
    obtain ⟨hne, hunique⟩ := opcodeMap_names r hr
    obtain hnop | ⟨r', hr', hname', hfits⟩ := fits_of_decoded (decode_spec w)
    · exact absurd (hname.symm.trans hnop) hne
    · rw [and_mask_eq_iff_fits hr, ← hunique r' hr' (hname'.trans hname)]
      exact hfits
  case noRow =>
    have hname := mnemonic_of_fits r hr ((and_mask_eq_iff_fits hr w).mp hmatch)
    exact (opcodeMap_names r hr).1 (hname.symm.trans hnop)
  case nop =>
    obtain hnop | ⟨r, hr, -, hfits⟩ := fits_of_decoded (decode_spec w)
    · exact hnop
    · exact absurd ((and_mask_eq_iff_fits hr w).mpr hfits) (hnone r hr)

end Sys2Proof.Encoding
end

section
/-! PROOFS. Frames that the rules of the whole machine are assembled from: chaining and widening them, the frames of the
writes that no instruction family has needed so far, and two runs side by side. -/

namespace Sys2Proof.Spec

open Sys2Proof.Machine

/-! ## Chaining and widening -/

theorem Same.trans {p : Piece} {s t u : State} (h₁ : Same p s t) (h₂ : Same p t u) : Same p s u := by
  cases p
  case v => exact fun r => (h₂ r).trans (h₁ r)
  case stack => exact fun j => (h₂ j).trans (h₁ j)
  case fb => exact fun x y => (h₂ x y).trans (h₁ x y)
  case mem => exact fun a => (h₂ a).trans (h₁ a)
  case inbox | rand => exact ⟨h₂.1.trans h₁.1, h₂.2.trans h₁.2⟩
  all_goals exact Eq.trans h₂ h₁

theorem SameBut.mono {ps qs : List Piece} {s t : State} (h : SameBut ps s t) (hsub : ps ⊆ qs) : SameBut qs s t :=
  fun p hp => h p fun hmem => hp (hsub hmem)

theorem SameBut.append {ps qs : List Piece} {s t u : State} (h₁ : SameBut ps s t) (h₂ : SameBut qs t u) :
    SameBut (qs ++ ps) s u := by
  intro p hp
  obtain ⟨hq, hp⟩ := not_or.mp (mt List.mem_append.mpr hp)
  exact (h₁ p hp).trans (h₂ p hq)

theorem SameBut.trans {ps : List Piece} {s t u : State} (h₁ : SameBut ps s t) (h₂ : SameBut ps t u) : SameBut ps s u :=
  (h₁.append h₂).mono (by simp)

/-! ## Frames of the remaining writes -/

theorem sameBut_setRun (s : State) (r : RunState) : SameBut [.run] s (s.setRun r) :=
  (sameBut_controlWrite s s.stack s.sp r s.pc).narrow (by simp [Same])

/-- Writing what the host's side of the machine holds leaves every other piece. -/
theorem sameBut_hostWrite (s : State) (keys : BitVec 16) (port : LoadPort) (inbox : List HostMove) (moves : Nat)
    (randIn : List Byte) (draws : Nat) :
    SameBut [.keys, .loadPort, .inbox, .rand] s
      { s with keys := keys, loadPort := port, inbox := inbox, moves := moves, randIn := randIn, draws := draws } := by
  intro p hp
  cases p
  case keys | loadPort | inbox | rand => simp at hp
  all_goals simp [Same, State.reg, State.pixel]

theorem sameBut_setKeys (s : State) (k : BitVec 16) : SameBut [.keys] s (s.setKeys k) :=
  (sameBut_hostWrite s k s.loadPort s.inbox s.moves s.randIn s.draws).narrow (by simp [Same])

theorem sameBut_drawn (s : State) : SameBut [.rand] s s.drawn :=
  (sameBut_hostWrite s s.keys s.loadPort s.inbox s.moves s.randIn.tail (s.draws + 1)).narrow (by simp [Same])

theorem sameBut_takeMove (s : State) : SameBut [.inbox] s (takeMove s) :=
  (sameBut_hostWrite s s.keys s.loadPort s.inbox.tail (s.moves + 1) s.randIn s.draws).narrow (by simp [Same])

theorem sameBut_loadPortWrite (s : State) (p : LoadPort) : SameBut [.loadPort] s { s with loadPort := p } :=
  (sameBut_hostWrite s s.keys p s.inbox s.moves s.randIn s.draws).narrow (by simp [Same])

/-! ## What a piece read alike says of the data behind it -/

theorem v_eq_of_same {s t : State} (h : Same .v s t) : t.v = s.v :=
  Vector.ext fun j hj => h ⟨j, hj⟩

theorem stack_eq_of_same {s t : State} (h : Same .stack s t) : t.stack = s.stack :=
  Vector.ext fun j hj => h ⟨j, hj⟩

theorem cell_of_lt (f : Vector (BitVec 64) 32) {x y : Nat} (hy : y < 32) : cell f x y = f[y].getLsbD x := by
  simp [cell, hy]

theorem fb_eq_of_same {s t : State} (h : Same .fb s t) : t.fb = s.fb := by
  refine Vector.ext fun y hy => BitVec.eq_of_getLsbD_eq fun x hx => ?_
  rw [← cell_of_lt t.fb hy, ← cell_of_lt s.fb hy]
  exact h ⟨x, hx⟩ ⟨y, hy⟩

theorem getBytes_congr {m m' : List Host.Cell} (h : ∀ a, Memory.get m' a = Memory.get m a) (a n : Nat) :
    Memory.getBytes m' a n = Memory.getBytes m a n := by
  induction n generalizing a with
  | zero => rfl
  | succ n ih => rw [Memory.getBytes, Memory.getBytes, h, ih]

theorem bytesAtI_of_same {s t : State} (hi : Same .i s t) (hmem : Same .mem s t) (n : Nat) :
    t.bytesAtI n = s.bytesAtI n := by
  rw [State.bytesAtI, State.bytesAtI, hi, getBytes_congr hmem]

end Sys2Proof.Spec
end

section
/-! PROOFS. The remaining instructions: CALL then RET, the shifts and RND, DRW, the keypad, and STM then LDM. -/

/-! ## CALL then RET (S5) -/

namespace Sys2Proof.Control

open Sys2Proof.Machine Sys2Proof.Spec

/-- Settles O27: RET pops the entry that CALL has just written, and SP is back where it was. -/
theorem callThenRetComesBack : Obligations.CallThenRetComesBack := by
  intro nnn m here s hroom
  obtain ⟨hstack, hsp, -, hcall⟩ := call_post_of_room (zextNNN nnn) hroom
  let t := (call (zextNNN nnn) s).setPc here
  obtain ⟨hsp', hpc', hret⟩ := ret_post_of_entry (s := t) ⟨s.sp.val, hroom⟩ hsp
  have hframe : SameBut [.pc, .sp, .stack] s (ret t) :=
    ((hcall.append (sameBut_setPc _ here)).append hret).mono (by decide)
  have hentries : Same .stack t (ret t) := hret .stack (by decide)
  refine ⟨call (zextNNN nnn) s, exec_call nnn s, ret t, exec_ret m t, ?pc, hframe.narrow ?back,
    fun j => (hentries j).trans (hstack j)⟩
  case pc => exact (hpc'.trans (hstack _)).trans (if_pos rfl)
  case back =>
    intro q hq hq'
    cases q
    case pc => exact (hpc'.trans (hstack _)).trans (if_pos rfl)
    case sp => exact Fin.ext hsp'
    all_goals simp at hq hq'

end Sys2Proof.Control

/-! ## Shifts and RND (R110, R112, R115) -/

namespace Sys2Proof.LoadAlu

open Sys2Proof.Machine Sys2Proof.Spec

/-- The configured source of a shift is `V[x]` (D13). -/
theorem exec_shr (x y : Reg) (s : State) :
    exec (.shr x y) s = .next (s.setResultFlag x (s.reg x >>> 1) (shiftedOutLow (s.reg x))) := rfl

theorem exec_shl (x y : Reg) (s : State) :
    exec (.shl x y) s = .next (s.setResultFlag x (s.reg x <<< 1) (shiftedOutHigh (s.reg x))) := rfl

theorem exec_rnd (x : Reg) (nn : Byte) (s : State) :
    exec (.rnd x nn) s = .next (s.drawn.setV x (s.randByte &&& nn)) := rfl

theorem byteHalf_toNat (a : Byte) : (a >>> 1).toNat = a.toNat / 2 := by
  rw [BitVec.toNat_ushiftRight, Nat.shiftRight_eq_div_pow]

theorem byteDouble_toNat (a : Byte) : (a <<< 1).toNat = a.toNat * 2 % 256 := by
  rw [BitVec.toNat_shiftLeft, Nat.shiftLeft_eq]

theorem shiftedOutLow_iff (a : Byte) : shiftedOutLow a = true ↔ a.toNat % 2 = 1 := by
  simp [shiftedOutLow, BitVec.getLsbD, Nat.testBit_zero]

theorem shiftedOutHigh_iff (a : Byte) : shiftedOutHigh a = true ↔ 128 ≤ a.toNat := by
  have := a.isLt
  rw [shiftedOutHigh, BitVec.getLsbD, Nat.testBit_eq_decide_div_mod_eq, decide_eq_true_iff]
  omega

/-- Settles O34: each writes the shifted byte, then the bit shifted out. -/
theorem shiftsSetBitShiftedOut : Obligations.ShiftsSetBitShiftedOut := fun x y s =>
  ⟨encodes_of_wordXYN rfl rfl (Laws.RoundTrip.shr x y rfl),
    encodes_of_wordXYN rfl rfl (Laws.RoundTrip.shl x y rfl),
    runs_of_setResultFlag (exec_shr x y s) (byteHalf_toNat _) (shiftedOutLow_iff _),
    runs_of_setResultFlag (exec_shl x y s) (byteDouble_toNat _) (shiftedOutHigh_iff _)⟩

theorem sameBut_rndWrite (s : State) (x : Reg) (b : Byte) : SameBut [.v, .rand] s (s.drawn.setV x b) :=
  (sameBut_drawn s).append (sameBut_setV s.drawn x b)

/-- Settles O36: by whether a byte is waiting in the list. -/
theorem rndMasksADrawnByte : Obligations.RndMasksADrawnByte := by
  intro x nn s
  have hreg (r : Reg) : (s.drawn.setV x (s.randByte &&& nn)).reg r = if x = r then s.randByte &&& nn else s.reg r :=
    State.reg_setV s.drawn x r _
  refine ⟨encodes_of_wordXNN rfl rfl (Laws.RoundTrip.rnd x nn rfl), _, exec_rnd x nn s, fun b bs hlist => ?listed,
    fun hnil => ?free, rfl, ?masked, fun r hr => ?other, sameBut_rndWrite s x _⟩
  case listed =>
    rw [hreg, if_pos rfl]
    exact ⟨by rw [State.randByte, hlist], congrArg List.tail hlist⟩
  case free =>
    rw [hreg, if_pos rfl]
    exact ⟨by rw [State.randByte, hnil], congrArg List.tail hnil⟩
  case masked => rw [hreg, if_pos rfl, BitVec.and_assoc, BitVec.and_not_self]; exact BitVec.and_zero
  case other => rw [hreg, if_neg (Ne.symm hr)]

end Sys2Proof.LoadAlu

/-! ## DRW (R123, R124) -/

namespace Sys2Proof.Display

open Sys2Proof.Machine Sys2Proof.Spec

/-- The grid after the sprite of a DRW, and whether it erased a set cell. -/
def drawing (x y : Reg) (n : Nat) (s : State) : Vector (BitVec 64) 32 × Bool :=
  drawRows s.fb false ((s.reg x).toNat % 64) ((s.reg y).toNat % 32) (s.bytesAtI n)

/-- What a DRW in range leaves: the drawn grid, and the collision in `VF`. -/
def afterSprite (x y : Reg) (n : Nat) (s : State) : State :=
  (s.setFb (drawing x y n s).1).setV vf (flagByte (drawing x y n s).2)

theorem exec_drw (x y : Reg) (n : Fin 16) (s : State) :
    exec (.drw x y n) s = .next (withRange n.val s (afterSprite x y n.val s)) := rfl

theorem exec_drw_of_legal {x y : Reg} {n : Fin 16} {s : State} (h : n.val = 0 ∨ s.i.toNat + n.val ≤ 0x1000) :
    exec (.drw x y n) s = .next (afterSprite x y n.val s) := by
  rw [exec_drw, withRange_of_legal ((outOfRange_eq_false_iff _ _).mpr h)]

/-- The model's sprite bit, of the bytes read at `I`, is the statements' one. -/
theorem spriteBit_bytesAtI (x y : Reg) (n : Nat) (s : State) (cx cy : Nat) :
    spriteBit (s.bytesAtI n) ((s.reg x).toNat % 64) ((s.reg y).toNat % 32) cx cy = spriteAt s x y n cx cy := by
  unfold spriteBit spriteAt State.bytesAtI
  rw [Memory.getBytes_length]
  by_cases hin : (s.reg y).toNat % 32 ≤ cy ∧ cy < (s.reg y).toNat % 32 + n
  · rw [Memory.getBytes_getD _ _ _ _ (by omega)]
    congr 1
    exact decide_eq_decide.mpr (by omega)
  · rw [decide_eq_false (by omega), decide_eq_false (by omega), Bool.false_and, Bool.false_and]

theorem pixel_afterSprite (x y : Reg) (n : Nat) (s : State) (cx : Fin 64) (cy : Fin 32) :
    (afterSprite x y n s).pixel cx cy = (s.pixel cx cy ^^ spriteAt s x y n cx.val cy.val) := by
  rw [← spriteBit_bytesAtI]
  exact cell_drawRows _ _ _ _ _ _ _ cx.isLt cy.isLt

theorem drawing_hit_iff (x y : Reg) (n : Nat) (s : State) :
    (drawing x y n s).2 = true ↔
      ∃ (cx : Fin 64) (cy : Fin 32), s.pixel cx cy = true ∧ spriteAt s x y n cx.val cy.val = true := by
  rw [drawing, drawRows_hit]
  simp only [spriteBit_bytesAtI, Bool.false_eq_true, false_or]
  constructor
  · rintro ⟨cx, cy, hx, hy, hcell, hbit⟩
    exact ⟨⟨cx, hx⟩, ⟨cy, hy⟩, hcell, hbit⟩
  · rintro ⟨cx, cy, hcell, hbit⟩
    exact ⟨cx.val, cy.val, cx.isLt, cy.isLt, hcell, hbit⟩

theorem reg_afterSprite (x y : Reg) (n : Nat) (s : State) (r : Reg) :
    (afterSprite x y n s).reg r = if r = 15 then flagByte (drawing x y n s).2 else s.reg r := by
  rw [afterSprite, State.reg_setV, State.reg_setFb]
  exact if_congr eq_comm rfl rfl

theorem vf_afterSprite_of_hit {x y : Reg} {n : Nat} {s : State}
    (h : ∃ (cx : Fin 64) (cy : Fin 32), s.pixel cx cy = true ∧ spriteAt s x y n cx.val cy.val = true) :
    (afterSprite x y n s).reg 15 = 1 := by
  rw [reg_afterSprite, if_pos rfl, (drawing_hit_iff x y n s).mpr h]
  rfl

theorem vf_afterSprite_of_no_hit {x y : Reg} {n : Nat} {s : State}
    (h : ∀ (cx : Fin 64) (cy : Fin 32), s.pixel cx cy = true → spriteAt s x y n cx.val cy.val = false) :
    (afterSprite x y n s).reg 15 = 0 := by
  have hmiss : (drawing x y n s).2 = false := by
    rw [Bool.eq_false_iff, Ne, drawing_hit_iff]
    rintro ⟨cx, cy, hcell, hbit⟩
    exact absurd hbit (by simp [h cx cy hcell])
  rw [reg_afterSprite, if_pos rfl, hmiss]
  rfl

theorem sameBut_afterSprite (x y : Reg) (n : Nat) (s : State) : SameBut [.fb, .v] s (afterSprite x y n s) :=
  ((sameBut_setFb s _).append (sameBut_setV _ vf _)).mono (by decide)

/-- Settles O39: a checked access, of which the drawing reads its bytes. -/
theorem drwXorsTheClippedSprite : Obligations.DrwXorsTheClippedSprite := by
  intro x y n s
  refine ⟨encodes_of_encode ?word (Laws.RoundTrip.drw x y n rfl), _, exec_drw x y n s, fun hlegal => ?legal,
    fun hn hend => ?illegal⟩
  case word =>
    have hword : (encode (.drw x y n)).toNat = 0xD * 4096 + x.val * 256 + y.val * 16 + n.val := wordXYN_toNat 0xD x y (nib n)
    omega
  case legal =>
    rw [withRange_of_legal ((outOfRange_eq_false_iff _ _).mpr hlegal)]
    exact ⟨pixel_afterSprite x y n.val s, vf_afterSprite_of_hit, vf_afterSprite_of_no_hit,
      fun r hr => by rw [reg_afterSprite, if_neg hr], sameBut_afterSprite x y n.val s⟩
  case illegal =>
    rw [withRange_of_illegal ((outOfRange_iff _ _).mpr ⟨hn, by omega⟩)]
    exact entersFault_memOutOfBounds s

theorem spriteAt_congr {x y : Reg} {s t : State} (hx : t.reg x = s.reg x) (hy : t.reg y = s.reg y) (hi : t.i = s.i)
    (hmem : ∀ a, Memory.get t.mem a = Memory.get s.mem a) (n cx cy : Nat) :
    spriteAt t x y n cx cy = spriteAt s x y n cx cy := by
  rw [spriteAt, spriteAt, hx, hy, hi, hmem]

/-- Settles O40: the second drawing XORs the same bits onto what the first has left, so it lights what was lit before the
first and collides where the first lit a clear cell. -/
theorem drwTwiceRestoresTheScreen : Obligations.DrwTwiceRestoresTheScreen := by
  intro x y n s hlegal
  refine ⟨_, exec_drw_of_legal hlegal, fun again hx hy hsame => ?_⟩
  have hi : again.i = s.i := hsame .i (by decide)
  have hmem (a : Nat) : Memory.get again.mem a = Memory.get s.mem a := hsame .mem (by decide) a
  have hsprite := spriteAt_congr hx hy hi hmem n.val
  have hpixel (cx : Fin 64) (cy : Fin 32) :
      again.pixel cx cy = (s.pixel cx cy ^^ spriteAt s x y n.val cx.val cy.val) :=
    (hsame .fb (by decide) cx cy).trans (pixel_afterSprite x y n.val s cx cy)
  refine ⟨_, exec_drw_of_legal (by rwa [hi]), fun cx cy => ?restored, fun hclear => ?hit, fun hlit => ?noHit⟩
  case restored => rw [pixel_afterSprite, hsprite, hpixel, Bool.xor_assoc, Bool.xor_self, Bool.xor_false]
  case hit =>
    obtain ⟨cx, cy, hcell, hbit⟩ := hclear
    exact vf_afterSprite_of_hit ⟨cx, cy, by rw [hpixel, hcell, hbit]; rfl, (hsprite _ _).trans hbit⟩
  case noHit =>
    refine vf_afterSprite_of_no_hit fun cx cy hcell => ?_
    rw [hsprite]
    by_contra hbit
    rw [Bool.not_eq_false] at hbit
    rw [hpixel, hlit cx cy hbit, hbit] at hcell
    exact absurd hcell (by decide)

end Sys2Proof.Display

/-! ## The keypad (R130 to R133) -/

namespace Sys2Proof.Keypad

open Sys2Proof.Machine Sys2Proof.Spec

theorem exec_skp (x : Reg) (s : State) : exec (.skp x) s = .next (skipIf (held (s.reg x) s) s) := rfl

theorem exec_sknp (x : Reg) (s : State) : exec (.sknp x) s = .next (skipIf (!held (s.reg x) s) s) := rfl

theorem exec_waitKey (x : Reg) (s : State) : exec (.waitKey x) s = .next (s.setRun (.awaitingKey x)) := rfl

theorem skipIf_pc (c : Bool) (s : State) : (skipIf c s).pc = if c then s.pc + 2 else s.pc := by
  cases c <;> rfl

theorem held_of_eq {b : Byte} {k : Key} (h : b.toNat = k.val) (s : State) : held b s = s.keys.getLsbD k.val := by
  rw [held_of_key (by omega), h]

/-- Settles O41: each is the shared skip, on whether `V[x]` names a held key. -/
theorem keySkips : Obligations.KeySkips := by
  intro x s
  refine ⟨encodes_of_wordXNN_fixed rfl rfl (Laws.RoundTrip.skp x rfl),
    encodes_of_wordXNN_fixed rfl rfl (Laws.RoundTrip.sknp x rfl),
    ⟨_, exec_skp x s, Skip.sameBut_skipIf _ s, fun k hk => ?skpKey, fun hbig => ?skpNoKey⟩,
    ⟨_, exec_sknp x s, Skip.sameBut_skipIf _ s, fun k hk => ?sknpKey, fun hbig => ?sknpNoKey⟩⟩
  case skpKey => rw [skipIf_pc, held_of_eq hk]
  case skpNoKey => rw [skipIf_pc, held_of_no_key hbig]; rfl
  case sknpKey => rw [skipIf_pc, held_of_eq hk]; cases s.keys.getLsbD k.val <;> rfl
  case sknpNoKey => rw [skipIf_pc, held_of_no_key hbig]; rfl

/-- Settles O42: WAITKEY is one write of `RUN`. -/
theorem waitKeySetsTheLatch : Obligations.WaitKeySetsTheLatch := fun x s =>
  ⟨encodes_of_wordXNN_fixed rfl rfl (Laws.RoundTrip.waitKey x rfl), _, exec_waitKey x s, State.setRun_run s _,
    sameBut_setRun s _⟩

end Sys2Proof.Keypad

/-! ## STM then LDM (R152, R153) -/

namespace Sys2Proof.MemoryOps

open Sys2Proof.Machine Sys2Proof.Spec

theorem outOfRange_of_last {a : Half} {x : Reg} (h : a.toNat + x.val ≤ 0xFFF) : outOfRange a (x.val + 1) = false :=
  (outOfRange_eq_false_iff _ _).mpr (.inr (by omega))

theorem exec_stm_of_legal {x : Reg} {s : State} (h : s.i.toNat + x.val ≤ 0xFFF) :
    exec (.stm x) s = .next (s.storeAtI (s.regsUpTo x)) := by
  rw [exec_stm, withRange_of_legal (outOfRange_of_last h)]

theorem exec_ldm_of_legal {x : Reg} {s : State} (h : s.i.toNat + x.val ≤ 0xFFF) :
    exec (.ldm x) s = .next (s.loadRegs x (s.bytesAtI (x.val + 1))) := by
  rw [exec_ldm, withRange_of_legal (outOfRange_of_last h)]

/-- Settles O47: LDM reads `V[k]` at `I + k`, where STM has put it. -/
theorem ldmRestoresWhatStmSaved : Obligations.LdmRestoresWhatStmSaved := by
  intro x s between hlegal
  refine ⟨_, exec_stm_of_legal hlegal, fun hi hmem => ?_⟩
  have hi : between.i = s.i := hi
  refine ⟨_, exec_ldm_of_legal (by rwa [hi]), fun k hk => ?_⟩
  rw [reg_loadRegs_bytesAtI between hk, hmem, hi, get_storeAtI_regsUpTo s hk]

end Sys2Proof.MemoryOps
end

section
/-! PROOFS. Rules of the whole instruction set: what `exec` can do said once, and from it the frames, the faults, the
registers it writes and what it cannot see. -/

namespace Sys2Proof.Spec

open Sys2Proof.Machine

/-- What an instruction is known to leave holds of every state it answers: it answers one. -/
theorem Runs.of_next {i : Instr} {s t : State} {post : State → Prop} (h : Runs i s post) (ht : exec i s = .next t) :
    post t := by
  obtain ⟨u, hu, hpost⟩ := h
  exact Host.Outcome.next.inj (hu.symm.trans ht) ▸ hpost

end Sys2Proof.Spec

namespace Sys2Proof.Rules

open Sys2Proof.Machine Sys2Proof.Spec

/-! ## Faults and frames (R190, R196) -/

/-- An instruction raises the fault of the table and does nothing else, or there is none in the table, and it keeps its
frame and halts nothing. -/
def FaultsOrKeepsFrame (i : Instr) (s : State) : Prop :=
  (∃ c info, faultOf i s = some (c, info.toNat) ∧ exec i s = .next (raise c info s)) ∨
  (faultOf i s = none ∧ Runs i s fun t => SameBut (mayWrite i) s t ∧ (t.run = s.run ∨ ∃ r, t.run = .awaitingKey r))

theorem rangeFault_of_legal {len : Nat} {s : State} (h : outOfRange s.i len = false) : rangeFault len s = none := by
  have := (outOfRange_eq_false_iff _ _).mp h
  exact if_neg (by omega)

theorem rangeFault_of_illegal {len : Nat} {s : State} (h : outOfRange s.i len = true) :
    rangeFault len s = some (.memOutOfBounds, (firstBadAddress s.i).toNat) := by
  have := (outOfRange_iff _ _).mp h
  rw [firstBadAddress_toNat]
  exact if_pos (by omega)

theorem faultsOrKeepsFrame_of_withRange {i : Instr} {len : Nat} {s ok : State}
    (hexec : exec i s = .next (withRange len s ok)) (hfault : faultOf i s = rangeFault len s)
    (hframe : SameBut (mayWrite i) s ok) (hrun : ok.run = s.run) : FaultsOrKeepsFrame i s := by
  obtain ⟨hlegal, hok⟩ | ⟨hillegal, hraise⟩ := withRange_cases len s ok
  · exact .inr ⟨hfault.trans (rangeFault_of_legal hlegal), ok, hok ▸ hexec, hframe, .inl hrun⟩
  · exact .inl ⟨_, _, hfault.trans (rangeFault_of_illegal hillegal), hraise ▸ hexec⟩

theorem faultsOrKeepsFrame_call (nnn : BitVec 12) (s : State) : FaultsOrKeepsFrame (.call nnn) s := by
  by_cases hfull : s.sp.val = 16
  · exact .inl ⟨.stackOverflow, 16, if_pos hfull, by rw [Control.exec_call, call_of_full _ hfull]⟩
  · have hroom : s.sp.val < 16 := by omega
    obtain ⟨-, -, -, hframe⟩ := Control.call_post_of_room (zextNNN nnn) hroom
    exact .inr ⟨if_neg hfull, _, Control.exec_call nnn s, hframe.mono (by simp [mayWrite]),
      .inl (hframe .run (by decide))⟩

theorem faultsOrKeepsFrame_ret (m : Byte) (s : State) : FaultsOrKeepsFrame (.ret m) s := by
  by_cases hempty : s.sp.val = 0
  · exact .inl ⟨.stackUnderflow, 0, if_pos hempty, by rw [Control.exec_ret, ret_of_empty hempty]⟩
  · obtain ⟨-, -, hframe⟩ := Control.ret_post_of_entry (s := s) ⟨s.sp.val - 1, by omega⟩
      (show s.sp.val = s.sp.val - 1 + 1 by omega)
    exact .inr ⟨if_neg hempty, _, Control.exec_ret m s, hframe.mono (by simp [mayWrite]),
      .inl (hframe .run (by decide))⟩

theorem skipIf_run (c : Bool) (s : State) : (skipIf c s).run = s.run := by
  cases c <;> rfl

/-- Everything an instruction can do, as far as faults and frames go. -/
theorem exec_faultsOrKeepsFrame (i : Instr) (s : State) : FaultsOrKeepsFrame i s := by
  cases i with
  | cls => exact .inr ⟨rfl, _, rfl, sameBut_setFb s _, .inl rfl⟩
  | ret m => exact faultsOrKeepsFrame_ret m s
  | jp | jpV0 => exact .inr ⟨rfl, _, rfl, sameBut_setPc s _, .inl rfl⟩
  | call nnn => exact faultsOrKeepsFrame_call nnn s
  | ldIndex | addIndex | font => exact .inr ⟨rfl, _, rfl, sameBut_setI s _, .inl rfl⟩
  | seImm | sneImm | seReg | sneReg | skp | sknp =>
    exact .inr ⟨rfl, _, rfl, Skip.sameBut_skipIf _ s, .inl (skipIf_run _ s)⟩
  | ldImm | addImm | mov | or | and | xor | ldDt => exact .inr ⟨rfl, _, rfl, sameBut_setV s _ _, .inl rfl⟩
  | addReg | sub | shr | subn | shl => exact .inr ⟨rfl, _, rfl, sameBut_setResultFlag s _ _ _, .inl rfl⟩
  | rnd x nn => exact .inr ⟨rfl, _, rfl, LoadAlu.sameBut_rndWrite s x _, .inl rfl⟩
  | drw x y n =>
    exact faultsOrKeepsFrame_of_withRange (Display.exec_drw x y n s) rfl
      ((Display.sameBut_afterSprite x y n.val s).mono (by simp [mayWrite])) rfl
  | waitKey x => exact .inr ⟨rfl, _, rfl, sameBut_setRun s _, .inr ⟨x, rfl⟩⟩
  | stDt => exact .inr ⟨rfl, _, rfl, sameBut_setDt s _, .inl rfl⟩
  | stSt => exact .inr ⟨rfl, _, rfl, sameBut_setSt s _, .inl rfl⟩
  | bcd x =>
    exact faultsOrKeepsFrame_of_withRange (MemoryOps.exec_bcd x s) rfl
      ((sameBut_storeAtI s _).mono (by simp [mayWrite])) rfl
  | stm x =>
    exact faultsOrKeepsFrame_of_withRange (MemoryOps.exec_stm x s) rfl
      ((sameBut_storeAtI s _).mono (by simp [mayWrite])) rfl
  | ldm x =>
    exact faultsOrKeepsFrame_of_withRange (MemoryOps.exec_ldm x s) rfl
      ((sameBut_loadRegs s x _).mono (by simp [mayWrite])) (State.loadRegs_run s x _)
  | nop => exact .inr ⟨rfl, s, rfl, sameBut_refl _ s, .inl rfl⟩

/-- Settles O12: by whether the table has a fault. -/
theorem faultCausesAreExact : Obligations.FaultCausesAreExact := by
  intro i s
  obtain ⟨c, info, hfault, hexec⟩ | ⟨hnone, t, hexec, -, hrun⟩ := exec_faultsOrKeepsFrame i s
  · refine ⟨_, hexec, fun c' n h => ?_, fun h => ?_⟩
    · obtain ⟨rfl, rfl⟩ := Prod.mk.inj (Option.some.inj (hfault.symm.trans h))
      exact entersFault_raise c info s
    · exact absurd (hfault.symm.trans h) (by simp)
  · refine ⟨t, hexec, fun c n h => ?_, fun _ c p a hhalt => ?_⟩
    · exact absurd (hnone.symm.trans h) (by simp)
    · obtain hkept | ⟨r, hwait⟩ := hrun
      · exact hkept.symm.trans hhalt
      · exact absurd (hwait.symm.trans hhalt) (by simp)

/-- An instruction that can fault may write what a fault writes. -/
theorem faultWrites_subset_mayWrite {i : Instr} {s : State} {f : Cause × Nat} (h : faultOf i s = some f) :
    [.run, .pc] ⊆ mayWrite i := by
  cases i with
  | call | ret | drw | bcd | stm | ldm => simp [mayWrite]
  | _ => simp [faultOf] at h

/-- Settles O14: a fault writes RUN and PC, which a faulting instruction may write; without one the frame is kept. -/
theorem everyInstructionKeepsItsFrame : Obligations.EveryInstructionKeepsItsFrame := by
  intro i s t ht
  obtain ⟨c, info, hfault, hexec⟩ | ⟨-, hruns⟩ := exec_faultsOrKeepsFrame i s
  · rw [← Host.Outcome.next.inj (hexec.symm.trans ht)]
    exact (sameBut_raise c info s).mono (faultWrites_subset_mayWrite hfault)
  · exact (hruns.of_next ht).1

/-! ## Registers written (R11) -/

/-- R11, of one run of one instruction. -/
def WritesByTheFlagRules (i : Instr) (s t : State) : Prop :=
  (∀ r : Reg, isDestination r i = false → (r ≠ 15 ∨ writesFlag i = false) → t.reg r = s.reg r) ∧
    (writesFlag i = true → faultOf i s = none → t.reg 15 = 0 ∨ t.reg 15 = 1)

theorem flagByte_zero_or_one (b : Bool) : flagByte b = 0 ∨ flagByte b = 1 := by
  cases b
  · exact .inl rfl
  · exact .inr rfl

theorem flagRules_of_setV {i : Instr} {x : Reg} {b : Byte} (s : State) (hdest : ∀ r, isDestination r i = (r == x))
    (hflag : writesFlag i = false) : WritesByTheFlagRules i s (s.setV x b) := by
  refine ⟨fun r hr _ => ?_, fun h => absurd (hflag.symm.trans h) (by decide)⟩
  have hne : r ≠ x := beq_eq_false_iff_ne.mp ((hdest r).symm.trans hr)
  rw [State.reg_setV, if_neg hne.symm]

theorem flagRules_of_setResultFlag {i : Instr} {x : Reg} {b : Byte} {c : Bool} (s : State)
    (hdest : ∀ r, isDestination r i = (r == x)) (hflag : writesFlag i = true) :
    WritesByTheFlagRules i s (s.setResultFlag x b c) := by
  refine ⟨fun r hr hor => ?_, fun _ _ => ?_⟩
  · have hne : r ≠ x := beq_eq_false_iff_ne.mp ((hdest r).symm.trans hr)
    have hvf : r ≠ vf := hor.resolve_right (by simp [hflag])
    rw [State.reg_setResultFlag, if_neg hvf, if_neg hne.symm]
  · rw [State.reg_setResultFlag, if_pos (show (15 : Reg) = vf from rfl)]
    exact flagByte_zero_or_one c

theorem flagRules_of_drw (x y : Reg) (n : Fin 16) (s : State) :
    WritesByTheFlagRules (.drw x y n) s (withRange n.val s (Display.afterSprite x y n.val s)) := by
  obtain ⟨-, hok⟩ | ⟨hillegal, hraise⟩ := withRange_cases n.val s (Display.afterSprite x y n.val s)
  · rw [hok]
    refine ⟨fun r _ hor => ?_, fun _ _ => ?_⟩
    · rw [Display.reg_afterSprite, if_neg (hor.resolve_right (by simp [writesFlag]))]
    · rw [Display.reg_afterSprite, if_pos rfl]
      exact flagByte_zero_or_one _
  · rw [hraise]
    exact ⟨fun _ _ _ => rfl, fun _ h => absurd ((rangeFault_of_illegal hillegal).symm.trans h) (by simp)⟩

theorem flagRules_of_ldm (x : Reg) (s : State) (bs : List Byte) :
    WritesByTheFlagRules (.ldm x) s (withRange (x.val + 1) s (s.loadRegs x bs)) := by
  refine ⟨fun r hr _ => ?_, fun h => absurd h (by simp [writesFlag])⟩
  obtain ⟨-, hok⟩ | ⟨-, hraise⟩ := withRange_cases (x.val + 1) s (s.loadRegs x bs)
  · rw [hok, reg_loadRegs, if_neg (of_decide_eq_false hr)]
  · rw [hraise, raise_reg]

/-- An instruction whose frame holds the registers keeps every one of them. -/
theorem flagRules_of_frame {i : Instr} {s : State} (hv : .v ∉ mayWrite i) (hflag : writesFlag i = false) :
    Runs i s (WritesByTheFlagRules i s) := by
  obtain ⟨t, ht, -⟩ := faultCausesAreExact i s
  exact ⟨t, ht, fun r _ _ => everyInstructionKeepsItsFrame i s t ht .v hv r,
    fun h => absurd (hflag.symm.trans h) (by decide)⟩

theorem runs_writesByTheFlagRules (i : Instr) (s : State) : Runs i s (WritesByTheFlagRules i s) := by
  cases i with
  | ldImm | addImm | mov | or | and | xor | ldDt => exact ⟨_, rfl, flagRules_of_setV s (fun _ => rfl) rfl⟩
  | addReg | sub | shr | subn | shl => exact ⟨_, rfl, flagRules_of_setResultFlag s (fun _ => rfl) rfl⟩
  | rnd => exact ⟨_, rfl, flagRules_of_setV s.drawn (fun _ => rfl) rfl⟩
  | drw x y n => exact ⟨_, rfl, flagRules_of_drw x y n s⟩
  | ldm x => exact ⟨_, rfl, flagRules_of_ldm x s _⟩
  | _ => exact flagRules_of_frame (by simp [mayWrite]) rfl

/-- Settles O15: the registers change only where one of the writes of V is. -/
theorem flagRegisterRules : Obligations.FlagRegisterRules := fun i s _ ht =>
  (runs_writesByTheFlagRules i s).of_next ht

end Sys2Proof.Rules
end

section
/-! PROOFS. Two runs side by side (R17, R177): every write done to two states that agree but for some pieces leaves them
agreeing but for those, so an instruction keeps two states together that agree on what it sees. -/

namespace Sys2Proof.Spec

open Sys2Proof.Machine

/-! ## One write, in two states -/

section Writes
variable {ps : List Piece} {s s' : State} (h : SameBut ps s s')
include h

theorem SameBut.setV (x : Reg) {b b' : Byte} (hb : b' = b) : SameBut ps (s.setV x b) (s'.setV x b') := by
  intro p hp
  cases p
  case v => exact fun r => by rw [State.reg_setV, State.reg_setV, hb, h .v hp r]
  all_goals exact h _ hp

theorem SameBut.setResultFlag (x : Reg) {b b' : Byte} {c c' : Bool} (hb : b' = b) (hc : c' = c) :
    SameBut ps (s.setResultFlag x b c) (s'.setResultFlag x b' c') :=
  (h.setV x hb).setV vf (congrArg flagByte hc)

theorem SameBut.vWrite {v v' : Vector Byte 16} (hv : .v ∉ ps → v' = v) :
    SameBut ps { s with v := v } { s' with v := v' } := by
  intro p hp
  cases p
  case v => exact fun r => congrArg (·[r]) (hv hp)
  all_goals exact h _ hp

theorem SameBut.loadRegs (x : Reg) {bs bs' : List Byte} (hbs : bs' = bs) :
    SameBut ps (s.loadRegs x bs) (s'.loadRegs x bs') :=
  h.vWrite fun hp => by simp only [v_eq_of_same (h .v hp), hbs]

theorem SameBut.setI {a a' : Half} (ha : a' = a) : SameBut ps (s.setI a) (s'.setI a') := by
  intro p hp
  cases p
  case i => exact ha
  all_goals exact h _ hp

theorem SameBut.setPc {a a' : Half} (ha : a' = a) : SameBut ps (s.setPc a) (s'.setPc a') := by
  intro p hp
  cases p
  case pc => exact ha
  all_goals exact h _ hp

theorem SameBut.setRun {r r' : RunState} (hr : r' = r) : SameBut ps (s.setRun r) (s'.setRun r') := by
  intro p hp
  cases p
  case run => exact hr
  all_goals exact h _ hp

theorem SameBut.setDt {b b' : Byte} (hb : b' = b) : SameBut ps (s.setDt b) (s'.setDt b') := by
  intro p hp
  cases p
  case dt => exact hb
  all_goals exact h _ hp

theorem SameBut.setSt {b b' : Byte} (hb : b' = b) : SameBut ps (s.setSt b) (s'.setSt b') := by
  intro p hp
  cases p
  case st => exact hb
  all_goals exact h _ hp

theorem SameBut.setFb {f f' : Vector (BitVec 64) 32} (hf : f' = f) : SameBut ps (s.setFb f) (s'.setFb f') := by
  intro p hp
  cases p
  case fb => exact fun x y => congrArg (cell · x.val y.val) hf
  all_goals exact h _ hp

theorem SameBut.storeAtI {bs bs' : List Byte} (hi : s'.i = s.i) (hbs : bs' = bs) :
    SameBut ps (s.storeAtI bs) (s'.storeAtI bs') := by
  intro p hp
  cases p
  case mem =>
    intro a
    rw [State.storeAtI_mem, State.storeAtI_mem, Memory.get_setBytes, Memory.get_setBytes, hi, hbs, h .mem hp a]
  all_goals exact h _ hp

theorem SameBut.drawn : SameBut ps s.drawn s'.drawn := by
  intro p hp
  cases p
  case rand =>
    obtain ⟨hlist, hcount⟩ := h .rand hp
    exact ⟨congrArg List.tail hlist, congrArg (· + 1) hcount⟩
  all_goals exact h _ hp

/-- Writing the call stack and `PC`. -/
theorem SameBut.stackWrite (stack : Vector Half 16) (sp : Fin 17) (pc : Half) :
    SameBut ps { s with stack := stack, sp := sp, pc := pc } { s' with stack := stack, sp := sp, pc := pc } := by
  intro p hp
  cases p
  case stack => exact fun _ => rfl
  case sp | pc => exact rfl
  all_goals exact h _ hp

/-! ## The shared operations, in two states -/

theorem SameBut.raise (c : Cause) {info info' : Half} (hpc : s'.pc = s.pc) (hinfo : info' = info) :
    SameBut ps (raise c info s) (raise c info' s') :=
  (h.setPc (by rw [hpc])).setRun (by rw [hpc, hinfo])

theorem SameBut.withRange (len : Nat) {ok ok' : State} (hok : SameBut ps ok ok') (hi : s'.i = s.i)
    (hpc : s'.pc = s.pc) : SameBut ps (withRange len s ok) (withRange len s' ok') := by
  obtain ⟨hlegal, hw⟩ | ⟨hillegal, hw⟩ := withRange_cases len s ok
  · rw [hw, withRange_of_legal (by rwa [hi])]
    exact hok
  · rw [hw, withRange_of_illegal (by rwa [hi])]
    exact h.raise .memOutOfBounds hpc (by rw [hi])

theorem SameBut.skipIf {c c' : Bool} (hpc : s'.pc = s.pc) (hc : c' = c) :
    SameBut ps (skipIf c s) (skipIf c' s') := by
  subst hc
  cases c'
  · exact h
  · exact h.setPc (by rw [hpc])

theorem SameBut.call (target : Half) (hstack : s'.stack = s.stack) (hsp : s'.sp = s.sp) (hpc : s'.pc = s.pc) :
    SameBut ps (call target s) (call target s') := by
  by_cases hfull : s.sp.val = 16
  · rw [call_of_full _ hfull, call_of_full _ (by rwa [hsp])]
    exact h.raise .stackOverflow hpc rfl
  · have hroom : s.sp.val < 16 := by omega
    rw [call_of_room _ hroom, call_of_room _ (by rwa [hsp])]
    simp only [hstack, hsp, hpc]
    exact h.stackWrite _ _ _

theorem SameBut.ret (hstack : s'.stack = s.stack) (hsp : s'.sp = s.sp) (hpc : s'.pc = s.pc) :
    SameBut ps (ret s) (ret s') := by
  by_cases hempty : s.sp.val = 0
  · rw [ret_of_empty hempty, ret_of_empty (by rwa [hsp])]
    exact h.raise .stackUnderflow hpc rfl
  · rw [ret_of_entry hempty, ret_of_entry (by rwa [hsp])]
    simp only [hstack, hsp]
    exact h.stackWrite _ _ _

end Writes

end Sys2Proof.Spec

namespace Sys2Proof.Rules

open Sys2Proof.Machine Sys2Proof.Spec

/-! ## One instruction, in two states -/

theorem drawing_congr {s s' : State} (x y : Reg) (n : Nat) (hreg : Same .v s s') (hi : Same .i s s')
    (hfb : Same .fb s s') (hmem : Same .mem s s') : Display.drawing x y n s' = Display.drawing x y n s := by
  rw [Display.drawing, Display.drawing, hreg x, hreg y, fb_eq_of_same hfb, bytesAtI_of_same hi hmem]

/-- `KEYS` is the only piece that a held key depends on. -/
theorem held_congr {s s' : State} (hkeys : Same .keys s s') (b : Byte) : held b s' = held b s := by
  simp only [held, State.isPressed, show s'.keys = s.keys from hkeys]

theorem randByte_congr {s s' : State} (hrand : Same .rand s s') : s'.randByte = s.randByte := by
  obtain ⟨hlist, hcount⟩ := hrand
  rw [State.randByte, State.randByte, hlist, hcount]

/-- No instruction is blind to more than the five pieces that most cannot see. -/
theorem cannotSee_subset (i : Instr) : cannotSee i ⊆ [.st, .keys, .rand, .loadPort, .inbox] := by
  cases i with
  | skp | sknp | rnd => simp [cannotSee]
  | _ => exact List.Subset.refl _

/-- An instruction run in two states that agree on what it sees leaves them so. -/
theorem exec_sameBut {i : Instr} {s s' : State} (h : SameBut (cannotSee i) s s') :
    Runs i s fun t => Runs i s' fun t' => SameBut (cannotSee i) t t' := by
  have hseen (p : Piece) (hp : p ∉ [Piece.st, .keys, .rand, .loadPort, .inbox]) : Same p s s' :=
    h p fun hmem => hp (cannotSee_subset i hmem)
  have hreg : ∀ r, s'.reg r = s.reg r := hseen .v (by decide)
  have hi : s'.i = s.i := hseen .i (by decide)
  have hpc : s'.pc = s.pc := hseen .pc (by decide)
  have hsp : s'.sp = s.sp := hseen .sp (by decide)
  have hdt : s'.dt = s.dt := hseen .dt (by decide)
  have hstack : s'.stack = s.stack := stack_eq_of_same (hseen .stack (by decide))
  have hbytes (n : Nat) : s'.bytesAtI n = s.bytesAtI n := bytesAtI_of_same hi (hseen .mem (by decide)) n
  cases i with
  | cls => exact ⟨_, rfl, _, rfl, h.setFb rfl⟩
  | ret => exact ⟨_, rfl, _, rfl, h.ret hstack hsp hpc⟩
  | jp => exact ⟨_, rfl, _, rfl, h.setPc rfl⟩
  | call => exact ⟨_, rfl, _, rfl, h.call _ hstack hsp hpc⟩
  | seImm | sneImm | seReg | sneReg => exact ⟨_, rfl, _, rfl, h.skipIf hpc (by simp only [hreg])⟩
  | ldImm | addImm | mov | or | and | xor => exact ⟨_, rfl, _, rfl, h.setV _ (by simp only [hreg])⟩
  | addReg | sub | subn => exact ⟨_, rfl, _, rfl, h.setResultFlag _ (by simp only [hreg]) (by simp only [hreg])⟩
  | shr x y =>
    exact ⟨_, LoadAlu.exec_shr x y s, _, LoadAlu.exec_shr x y s', h.setResultFlag x (by rw [hreg]) (by rw [hreg])⟩
  | shl x y =>
    exact ⟨_, LoadAlu.exec_shl x y s, _, LoadAlu.exec_shl x y s', h.setResultFlag x (by rw [hreg]) (by rw [hreg])⟩
  | ldIndex => exact ⟨_, rfl, _, rfl, h.setI rfl⟩
  | jpV0 => exact ⟨_, rfl, _, rfl, h.setPc (by rw [hreg])⟩
  | rnd => exact ⟨_, rfl, _, rfl, h.drawn.setV _ (by rw [randByte_congr (h .rand (by simp [cannotSee]))])⟩
  | drw x y n =>
    have hdrawing := drawing_congr x y n.val hreg hi (hseen .fb (by decide)) (hseen .mem (by decide))
    exact ⟨_, Display.exec_drw x y n s, _, Display.exec_drw x y n s',
      h.withRange _ ((h.setFb (by rw [hdrawing])).setV _ (by rw [hdrawing])) hi hpc⟩
  | skp | sknp => exact ⟨_, rfl, _, rfl, h.skipIf hpc (by rw [hreg, held_congr (h .keys (by simp [cannotSee]))])⟩
  | ldDt => exact ⟨_, rfl, _, rfl, h.setV _ hdt⟩
  | waitKey => exact ⟨_, rfl, _, rfl, h.setRun rfl⟩
  | stDt => exact ⟨_, rfl, _, rfl, h.setDt (hreg _)⟩
  | stSt => exact ⟨_, rfl, _, rfl, h.setSt (hreg _)⟩
  | addIndex => exact ⟨_, rfl, _, rfl, h.setI (by rw [hreg, hi])⟩
  | font => exact ⟨_, rfl, _, rfl, h.setI (by rw [hreg])⟩
  | bcd => exact ⟨_, rfl, _, rfl, h.withRange _ (h.storeAtI hi (by rw [hreg])) hi hpc⟩
  | stm =>
    exact ⟨_, rfl, _, rfl, h.withRange _ (h.storeAtI hi (by rw [State.regsUpTo, v_eq_of_same hreg]; rfl)) hi hpc⟩
  | ldm => exact ⟨_, rfl, _, rfl, h.withRange _ (h.loadRegs _ (hbytes _)) hi hpc⟩
  | nop => exact ⟨_, rfl, _, rfl, h⟩

/-- Settles O16: the two runs write the same values. -/
theorem instructionsSeeOnlyTheirInputs : Obligations.InstructionsSeeOnlyTheirInputs := fun _ _ _ _ _ h ht ht' =>
  ((exec_sameBut h).of_next ht).of_next ht'

end Sys2Proof.Rules
end

section
/-! PROOFS. The execution cycle (`50_execution_cycle.md`) and the host's other moves (`10_state.md` section 12,
`70_reset_and_hazards.md`): what every tick does before its own work, and what it does then, by run state. -/

namespace Sys2Proof.Cycle

open Sys2Proof.Machine Sys2Proof.Spec

/-! ## What every tick does before its own work (R171 step 1, R222) -/

/-- The state in which a tick's own work begins: the move is used up, the load port closed, the timers decayed if due. -/
def ticked (t : TickIn) (s : State) : State := decayIfDue t (closeLoadPort (takeMove s))

theorem step_of_nextTick {t : TickIn} {s : State} (h : NextTick t s) : step s = afterDecay t (ticked t s) := by
  obtain ⟨hmove, hport⟩ := h
  rw [step, hmove]
  exact tick_of_run t hport

theorem sameBut_timerDecay (s : State) : SameBut [.dt, .st] s (timerDecay s) :=
  sameBut_timerWrite s (decay s.dt) (decay s.st)

theorem sameBut_decayIfDue (t : TickIn) (s : State) : SameBut [.dt, .st] s (decayIfDue t s) := by
  rw [decayIfDue]
  split
  · exact sameBut_timerDecay s
  · exact sameBut_refl _ s

theorem decayed_decayIfDue (t : TickIn) (s : State) : Decayed t.timerDue s (decayIfDue t s) := by
  rw [decayIfDue]
  cases t.timerDue
  · exact ⟨rfl, rfl⟩
  · exact ⟨decay_toNat s.dt, decay_toNat s.st⟩

/-- The pieces that every tick may write. -/
def tickWrites : List Piece := [.dt, .st, .inbox, .loadPort]

theorem sameBut_ticked (t : TickIn) (s : State) : SameBut tickWrites s (ticked t s) :=
  (((sameBut_takeMove s).append (sameBut_loadPortWrite (takeMove s) _)).append (sameBut_decayIfDue t _)).mono (by decide)

theorem decayed_ticked (t : TickIn) (s : State) : Decayed t.timerDue s (ticked t s) :=
  decayed_decayIfDue t (closeLoadPort (takeMove s))

theorem closeLoadPort_loadPort (s : State) :
    (closeLoadPort s).loadPort = if s.loadPort = .pending then .missed else s.loadPort := by
  rw [closeLoadPort]
  cases s.loadPort <;> rfl

theorem tickTaken_ticked (t : TickIn) (s : State) : TickTaken s (ticked t s) := by
  have hdecay := sameBut_decayIfDue t (closeLoadPort (takeMove s))
  obtain ⟨hinbox, hmoves⟩ := hdecay .inbox (by decide)
  have hport := hdecay .loadPort (by decide)
  exact ⟨⟨hinbox, hmoves⟩, Eq.trans hport (closeLoadPort_loadPort _)⟩

/-- What a tick has done before its own work stands at its end, when that work leaves the timers, the inbox and the load
port. -/
theorem tick_effect {t : TickIn} {s u : State} {ps : List Piece} (h : SameBut ps (ticked t s) u)
    (hps : ∀ p ∈ tickWrites, p ∉ ps) :
    Decayed t.timerDue s u ∧ TickTaken s u ∧ SameBut (ps ++ tickWrites) s u := by
  have hdt : u.dt = (ticked t s).dt := h .dt (hps _ (by decide))
  have hst : u.st = (ticked t s).st := h .st (hps _ (by decide))
  have hinbox : Same .inbox (ticked t s) u := h .inbox (hps _ (by decide))
  have hport : u.loadPort = (ticked t s).loadPort := h .loadPort (hps _ (by decide))
  obtain ⟨hdecayDt, hdecayDt'⟩ := decayed_ticked t s
  obtain ⟨⟨htail, hcount⟩, hclosed⟩ := tickTaken_ticked t s
  exact ⟨⟨hdt ▸ hdecayDt, hst ▸ hdecayDt'⟩, ⟨⟨hinbox.1.trans htail, hinbox.2.trans hcount⟩, hport.trans hclosed⟩,
    (sameBut_ticked t s).append h⟩

section Ticked
variable (t : TickIn) (s : State)

@[simp] theorem ticked_run : (ticked t s).run = s.run := sameBut_ticked t s .run (by decide)
@[simp] theorem ticked_pc : (ticked t s).pc = s.pc := sameBut_ticked t s .pc (by decide)
@[simp] theorem ticked_i : (ticked t s).i = s.i := sameBut_ticked t s .i (by decide)
@[simp] theorem ticked_reg (r : Reg) : (ticked t s).reg r = s.reg r := sameBut_ticked t s .v (by decide) r

@[simp] theorem decayIfDue_mem : (decayIfDue t s).mem = s.mem := by
  rw [decayIfDue]
  cases t.timerDue <;> rfl

@[simp] theorem decayIfDue_stack : (decayIfDue t s).stack = s.stack := by
  rw [decayIfDue]
  cases t.timerDue <;> rfl

@[simp] theorem ticked_mem : (ticked t s).mem = s.mem := decayIfDue_mem t _
@[simp] theorem ticked_stack : (ticked t s).stack = s.stack := decayIfDue_stack t _

@[simp] theorem fetchWord_ticked : fetchWord (ticked t s) = fetchWord s := by
  rw [fetchWord, fetchWord, ticked_mem, ticked_pc]

end Ticked

/-! ## A tick's own work, by run state (R171 steps 2 and 3, R173 to R175) -/

theorem afterDecay_of_halted {t : TickIn} {s : State} {c : Cause} {p a : Half} (h : s.run = .halted c p a) :
    afterDecay t s = .next s := by
  rw [afterDecay, h]

theorem afterDecay_of_idle {t : TickIn} {s : State} (hrun : s.run = .running) (hdue : t.instrDue = false) :
    afterDecay t s = .next s := by
  simp [afterDecay, hrun, hdue]

theorem afterDecay_of_due {t : TickIn} {s : State} (hrun : s.run = .running) (hdue : t.instrDue = true) :
    afterDecay t s = instrStep s := by
  simp [afterDecay, hrun, hdue]

theorem afterDecay_of_event {t : TickIn} {s : State} {r : Reg} {k : Key} (hrun : s.run = .awaitingKey r)
    (hkey : t.keyEvent = some k) : afterDecay t s = .next (keyResolve r k s) := by
  simp [afterDecay, hrun, hkey]

theorem afterDecay_of_no_event {t : TickIn} {s : State} {r : Reg} (hrun : s.run = .awaitingKey r)
    (hkey : t.keyEvent = none) : afterDecay t s = .next s := by
  simp [afterDecay, hrun, hkey]

theorem instrStep_of_slot {s : State} (h : s.pc.toNat ≤ 0x0FFE) :
    instrStep s = exec (decode (fetchWord s)) (s.setPc (s.pc + 2)) :=
  if_neg (show ¬ Config.lastSlot < s.pc.toNat from Nat.not_lt.mpr h)

theorem instrStep_of_past_end {s : State} (h : 0x0FFE < s.pc.toNat) :
    instrStep s = .next (enterFault .pcOutOfRange s.pc s.pc s) :=
  if_pos (show Config.lastSlot < s.pc.toNat from h)

/-- A step of a running machine that is due for an instruction runs the word at PC (R175). -/
theorem step_runs_word {t : TickIn} {s : State} (h : NextTick t s) (hdue : t.instrDue = true) (hrun : s.run = .running)
    (hpc : s.pc.toNat ≤ 0x0FFE) : step s = exec (decode (fetchWord s)) ((ticked t s).setPc (s.pc + 2)) := by
  rw [step_of_nextTick h, afterDecay_of_due (by rwa [ticked_run]) hdue, instrStep_of_slot (by rwa [ticked_pc]),
    fetchWord_ticked, ticked_pc]

theorem pc_advanced_toNat {a : Half} (h : a.toNat ≤ 0x1000) : (a + 2).toNat = a.toNat + 2 := by
  rw [BitVec.toNat_add, show ((2 : Half)).toNat = 2 from rfl]
  omega

/-- Entering a fault at the address where PC stands already writes only RUN. -/
theorem sameBut_enterFault_pc (c : Cause) (info : Half) (s : State) : SameBut [.run] s (enterFault c s.pc info s) :=
  (sameBut_controlWrite s s.stack s.sp (.halted c s.pc info) s.pc).narrow (by simp [Same])

/-! ## The obligations on ticks -/

/-- Settles O5. -/
theorem stepRunsDecodedInstruction : Obligations.StepRunsDecodedInstruction := by
  intro s t i htick hdue hrun hpc hdecode
  have hi : decode (fetchWord s) = i := congrArg Prod.fst (Except.ok.inj hdecode)
  obtain ⟨hdecayed, htaken, hframe⟩ := tick_effect (sameBut_setPc (ticked t s) (s.pc + 2)) (by decide)
  exact ⟨_, hi ▸ step_runs_word htick hdue hrun hpc, pc_advanced_toNat (by omega), hdecayed, htaken, hframe⟩

/-- Settles O6. -/
theorem fetchPastEndHalts : Obligations.FetchPastEndHalts := by
  intro s t htick hdue hrun hpc
  have hstep : step s = .next (enterFault .pcOutOfRange s.pc s.pc (ticked t s)) := by
    rw [step_of_nextTick htick, afterDecay_of_due (by rwa [ticked_run]) hdue,
      instrStep_of_past_end (by rwa [ticked_pc]), ticked_pc]
  have hfault := sameBut_enterFault_pc .pcOutOfRange s.pc (ticked t s)
  rw [ticked_pc] at hfault
  exact ⟨_, hstep, rfl, tick_effect hfault (by decide)⟩

theorem sameBut_keyResolve (r : Reg) (k : Key) (s : State) : SameBut [.v, .run] s (keyResolve r k s) :=
  ((sameBut_setV s r _).append (sameBut_setRun _ .running)).mono (by decide)

theorem keyByte_toNat (k : Key) : (BitVec.ofNat 8 k.val).toNat = k.val := by
  rw [BitVec.toNat_ofNat]
  omega

theorem reg_keyResolve (r q : Reg) (k : Key) (s : State) :
    (keyResolve r k s).reg q = if r = q then BitVec.ofNat 8 k.val else s.reg q :=
  State.reg_setV s r q _

/-- Settles O7: by whether the tick carries a key event. -/
theorem waitingTickResolvesOnKeyEvent : Obligations.WaitingTickResolvesOnKeyEvent := by
  intro s t r htick hrun
  have hwait : (ticked t s).run = .awaitingKey r := by rwa [ticked_run]
  rw [step_of_nextTick htick]
  cases hkey : t.keyEvent with
  | none =>
    obtain ⟨hdecayed, htaken, hframe⟩ := tick_effect (sameBut_refl [] (ticked t s)) (by decide)
    exact ⟨_, afterDecay_of_no_event hwait hkey, hdecayed, htaken, fun k h => by simp at h, fun _ => hframe⟩
  | some k =>
    obtain ⟨hdecayed, htaken, hframe⟩ := tick_effect (sameBut_keyResolve r k (ticked t s)) (by decide)
    refine ⟨_, afterDecay_of_event hwait hkey, hdecayed, htaken, fun k' h => ?_, fun h => by simp at h⟩
    obtain rfl : k = k' := Option.some.inj h
    refine ⟨?key, fun q hq => ?other, rfl, hframe⟩
    case key => rw [reg_keyResolve, if_pos rfl, keyByte_toNat]
    case other => rw [reg_keyResolve, if_neg (Ne.symm hq), ticked_reg]

/-- Settles O8: in both cases the tick has no work of its own. -/
theorem idleTickOnlyDecays : Obligations.IdleTickOnlyDecays := by
  intro s t htick hidle
  have hnone : afterDecay t (ticked t s) = .next (ticked t s) := by
    obtain ⟨hrun, hdue⟩ | ⟨c, p, a, hhalt⟩ := hidle
    · exact afterDecay_of_idle (by rwa [ticked_run]) hdue
    · exact afterDecay_of_halted (by rwa [ticked_run])
  exact ⟨_, (step_of_nextTick htick).trans hnone, tick_effect (sameBut_refl [] (ticked t s)) (by decide)⟩

/-- Settles O9, by induction on the number of decays. -/
theorem repeatedDecayStopsAtZero : Obligations.RepeatedDecayStopsAtZero := by
  intro n s
  induction n with
  | zero => exact ⟨rfl, rfl, sameBut_refl _ s⟩
  | succ n ih =>
    obtain ⟨hdt, hst, hframe⟩ := ih
    rw [Function.iterate_succ_apply']
    refine ⟨?dt, ?st, hframe.trans (sameBut_timerDecay _)⟩
    case dt => rw [timerDecay_dt, decay_toNat, hdt, Nat.sub_sub]
    case st => rw [timerDecay_st, decay_toNat, hst, Nat.sub_sub]

/-! ## Faults and the halted state (R196 to R198) -/

/-- An instruction that halts a running machine has raised a fault and done nothing else. -/
theorem exec_raises_of_halts {i : Instr} {s u : State} {c : Cause} {p a : Half} (hrun : s.run = .running)
    (hexec : exec i s = .next u) (hhalt : u.run = .halted c p a) : u = raise c a s := by
  obtain ⟨c', info, -, hraise⟩ | ⟨-, hruns⟩ := Rules.exec_faultsOrKeepsFrame i s
  · obtain rfl := Host.Outcome.next.inj (hraise.symm.trans hexec)
    obtain ⟨rfl, -, rfl⟩ := RunState.halted.inj hhalt
    rfl
  · obtain ⟨-, hkept | ⟨r, hwait⟩⟩ := hruns.of_next hexec
    · exact absurd ((hkept.trans hrun).symm.trans hhalt) (by simp)
    · exact absurd (hwait.symm.trans hhalt) (by simp)

/-- The fault of an instruction takes back the advance of PC (R175, R196). -/
theorem raise_setPc_advanced (c : Cause) (a : Half) (s : State) :
    raise c a (s.setPc (s.pc + 2)) = enterFault c s.pc a s := by
  rw [raise, State.setPc_pc, BitVec.add_sub_cancel]
  rfl

/-- An instruction step that halts enters a fault at the PC it began with and does nothing else. -/
theorem instrStep_halts {s u : State} {c : Cause} {p a : Half} (hrun : s.run = .running)
    (hstep : instrStep s = .next u) (hhalt : u.run = .halted c p a) : u = enterFault c s.pc a s := by
  obtain ⟨-, hfetch⟩ | ⟨-, hexec⟩ := instrStep_cases s
  · obtain rfl := Host.Outcome.next.inj (hfetch.symm.trans hstep)
    obtain ⟨rfl, -, rfl⟩ := RunState.halted.inj hhalt
    rfl
  · rw [exec_raises_of_halts (s := s.setPc (s.pc + 2)) hrun (hexec.symm.trans hstep) hhalt, raise_setPc_advanced]

/-- Settles O11: only an instruction step can halt a running machine, and it enters a fault at its own address. -/
theorem faultsArePrecise : Obligations.FaultsArePrecise := by
  intro s u t c p a htick hrun hstep hhalt
  have hrun' : (ticked t s).run = .running := by rwa [ticked_run]
  rw [step_of_nextTick htick] at hstep
  obtain ⟨rfl, -, -⟩ | ⟨r, k, hwait, -, -⟩ | ⟨-, hdue, hinstr⟩ := afterDecay_cases hstep
  · exact absurd (hrun'.symm.trans hhalt) (by simp)
  · exact absurd (hrun'.symm.trans hwait) (by simp)
  · obtain rfl := instrStep_halts hrun' hinstr hhalt
    obtain ⟨-, hp, -⟩ := RunState.halted.inj hhalt
    exact ⟨hdue, hp.symm.trans (ticked_pc t s), tick_effect (sameBut_enterFault_pc c a (ticked t s)) (by decide)⟩

/-- The two results of a load while the load port is open (R224). -/
theorem loadProgram_of_pending {s : State} (bytes : List Byte) (h : s.loadPort = .pending) :
    loadProgram bytes s =
      if 3584 < bytes.length then .next { s with loadPort := .outOfSpace }
      else .next { s with mem := Memory.setBytes s.mem 0x200 bytes, loadPort := .loaded } := by
  rw [loadProgram, h]
  rfl

theorem sameBut_loadedWrite (s : State) (m : List Host.Cell) :
    SameBut [.loadPort, .mem] s { s with mem := m, loadPort := .loaded } :=
  (sameBut_setMem s m).append (sameBut_loadPortWrite (s.setMem m) .loaded)

theorem sameBut_loadProgram {bytes : List Byte} {s u : State} (hport : s.loadPort = .pending)
    (h : loadProgram bytes s = .next u) : SameBut [.loadPort, .mem] s u := by
  rw [loadProgram_of_pending bytes hport] at h
  split at h
  · obtain rfl := Host.Outcome.next.inj h
    exact (sameBut_loadPortWrite s .outOfSpace).mono (by decide)
  · obtain rfl := Host.Outcome.next.inj h
    exact sameBut_loadedWrite s _

/-- Settles O10: of the five moves of the host only a tick and a reset write RUN, and a halted machine's tick does not. -/
theorem onlyResetLeavesHalted : Obligations.OnlyResetLeavesHalted := by
  intro s u c p a hhalt hstep
  have halted_of {v : State} {ps : List Piece} (h : SameBut ps s v)
      (hps : ps ⊆ [.dt, .st, .keys, .mem, .loadPort, .inbox]) :
      v.run = .halted c p a ∧ SameBut [.dt, .st, .keys, .mem, .loadPort, .inbox] s v :=
    have hwide := h.mono hps
    ⟨Eq.trans (hwide .run (by decide)) hhalt, hwide⟩
  obtain ⟨t, -, -, htick⟩ | ⟨hreset, -⟩ | ⟨k, -, rfl⟩ | ⟨k, -, rfl⟩ | ⟨bytes, -, hport, hload⟩ := step_cases hstep
  · obtain rfl : ticked t s = u :=
      Host.Outcome.next.inj ((afterDecay_of_halted ((ticked_run t s).trans hhalt)).symm.trans htick)
    exact .inr (halted_of (sameBut_ticked t s) (by decide))
  · exact .inl hreset
  · exact .inr (halted_of ((sameBut_takeMove s).append (sameBut_setKeys _ _)) (by decide))
  · exact .inr (halted_of ((sameBut_takeMove s).append (sameBut_setKeys _ _)) (by decide))
  · exact .inr (halted_of ((sameBut_takeMove s).append (sameBut_loadProgram hport hload)) (by decide))

/-! ## Refusals (R222, R224) -/

/-- No tick's own work is refused. -/
theorem afterDecay_answers (t : TickIn) (s : State) : ∃ u, afterDecay t s = .next u := by
  cases hrun : s.run with
  | halted c p a => exact ⟨s, afterDecay_of_halted hrun⟩
  | awaitingKey r =>
    cases hkey : t.keyEvent with
    | none => exact ⟨s, afterDecay_of_no_event hrun hkey⟩
    | some k => exact ⟨_, afterDecay_of_event hrun hkey⟩
  | running =>
    cases hdue : t.instrDue with
    | false => exact ⟨s, afterDecay_of_idle hrun hdue⟩
    | true =>
      rw [afterDecay_of_due hrun hdue]
      obtain ⟨-, hfetch⟩ | ⟨-, hexec⟩ := instrStep_cases s
      · exact ⟨_, hfetch⟩
      · obtain ⟨u, hu, -⟩ := Rules.faultCausesAreExact (decode (fetchWord s)) (s.setPc (s.pc + 2))
        exact ⟨u, hexec.trans hu⟩

theorem tick_refused_iff (t : TickIn) (s : State) (r : Refusal) :
    tick t s = .refused r ↔ r = .runAfterFailedLoad ∧ s.loadPort = .outOfSpace := by
  by_cases hport : s.loadPort = .outOfSpace
  · rw [tick_of_failed_load t hport]
    simp [hport, eq_comm]
  · obtain ⟨u, hu⟩ := afterDecay_answers t (decayIfDue t (closeLoadPort s))
    rw [tick_of_run t hport, hu]
    simp [hport]

theorem loadProgram_refused_iff (bytes : List Byte) (s : State) (r : Refusal) :
    loadProgram bytes s = .refused r ↔ r = .lateLoad ∧ s.loadPort ≠ .pending := by
  by_cases hport : s.loadPort = .pending
  · rw [loadProgram_of_pending bytes hport]
    split
    · simp [hport]
    · simp [hport]
  · have hlate : loadProgram bytes s = .refused .lateLoad := by
      rw [loadProgram]
      split
      · contradiction
      · rfl
    rw [hlate]
    simp [hport, eq_comm]

/-- Settles O13: by the host's move. -/
theorem onlyLoadMisuseIsRefused : Obligations.OnlyLoadMisuseIsRefused := by
  intro s r
  rw [step]
  cases hmove : nextMove s with
  | reset | press | release => simp [hostMove]
  | load bytes => simp [hostMove, loadProgram_refused_iff]
  | tick t => simp [hostMove, tick_refused_iff]

/-! ## A stored instruction, and the end of a run (R53, R179) -/

/-- Settles O21: the store of the first step puts V0 and V1 where the second step fetches. -/
theorem storedInstructionRunsNext : Obligations.StoredInstructionRunsNext := by
  intro s x t₁ htick hdue hrun hpc hword hx hi hlegal
  let u := (ticked t₁ s).setPc (s.pc + 2)
  have hui : u.i = s.i := ticked_i t₁ s
  have hupc : u.pc.toNat = s.pc.toNat + 2 := pc_advanced_toNat (by omega)
  have hstep : step s = .next (u.storeAtI (u.regsUpTo x)) := by
    rw [step_runs_word htick hdue hrun (by omega), fetchWord, hword]
    exact MemoryOps.exec_stm_of_legal (by rwa [hui])
  obtain ⟨-, htaken, -⟩ := tick_effect
    ((sameBut_setPc (ticked t₁ s) (s.pc + 2)).append (sameBut_storeAtI u (u.regsUpTo x))) (by decide)
  refine ⟨_, hstep, htaken, fun t₂ htick₂ hdue₂ => ?_⟩
  have hfetch : fetchWord (u.storeAtI (u.regsUpTo x)) = s.reg 0 ++ s.reg 1 := by
    have hlow := MemoryOps.get_storeAtI_regsUpTo u (x := x) (k := 0) (Nat.zero_le _)
    have hhigh := MemoryOps.get_storeAtI_regsUpTo u (x := x) (k := 1) hx
    rw [fetchWord, State.storeAtI_pc, hupc, ← hi, ← hui]
    exact congrArg₂ _ (hlow.trans (ticked_reg t₁ s 0)) (hhigh.trans (ticked_reg t₁ s 1))
  obtain ⟨hdecayed₂, htaken₂, hframe₂⟩ := tick_effect
    (sameBut_setPc (ticked t₂ (u.storeAtI (u.regsUpTo x))) (u.pc + 2)) (by decide)
  refine ⟨_, hfetch ▸ step_runs_word htick₂ hdue₂ ?running ?slot, ?pc, hdecayed₂, htaken₂, hframe₂⟩
  case running => exact (ticked_run t₁ s).trans hrun
  case slot => rw [State.storeAtI_pc, hupc]; omega
  case pc => rw [State.setPc_pc, pc_advanced_toNat (by rw [hupc]; omega), hupc]

theorem finished_iff (s : State) :
    s.finished = true ↔ s.run = .running ∧ s.pc.toNat ≤ 0x0FFE ∧ fetchWord s = 0x1000 ||| s.pc := by
  simp only [State.finished, Bool.and_eq_true, beq_iff_eq, decide_eq_true_iff, and_assoc]
  rfl

/-- The word of a jump to an address within the 4096 bytes (R80). -/
theorem decode_jump {a : Half} (h : a.toNat < 0x1000) : decode (0x1000 ||| a) = .jp (a.setWidth 12) := by
  have hword : 0x1000 ||| a = encode (.jp (a.setWidth 12)) := by
    apply BitVec.eq_of_toNat_eq
    have hor : 0x1000 ||| a.toNat = 0x1000 + a.toNat := (Nat.two_pow_add_eq_or_of_lt (i := 12) h 1).symm
    rw [BitVec.toNat_or, show ((0x1000 : Half)).toNat = 0x1000 from rfl, hor, encode, wordNNN_toNat,
      BitVec.toNat_setWidth, Nat.mod_eq_of_lt h]
    rfl
  rw [hword, Laws.RoundTrip.jp _ rfl]

theorem zextNNN_setWidth {a : Half} (h : a.toNat < 0x1000) : zextNNN (a.setWidth 12) = a := by
  apply BitVec.eq_of_toNat_eq
  rw [zextNNN_toNat, BitVec.toNat_setWidth, Nat.mod_eq_of_lt h]

/-- A finished run's tick has no effect of its own: its instruction, if any, jumps to itself. -/
theorem step_of_finished {t : TickIn} {s : State} (hrun : s.run = .running) (hpc : s.pc.toNat ≤ 0x0FFE)
    (hword : fetchWord s = 0x1000 ||| s.pc) (htick : NextTick t s) : step s = .next (ticked t s) := by
  cases hdue : t.instrDue with
  | false => rw [step_of_nextTick htick, afterDecay_of_idle (by rwa [ticked_run]) hdue]
  | true =>
    rw [step_runs_word htick hdue hrun hpc, hword, decode_jump (by omega), Control.exec_jp,
      zextNNN_setWidth (by omega), ← ticked_pc t s]
    rfl

/-- Settles O22: nothing that tells a finished run is written by a tick. -/
theorem finishedRunStaysFinished : Obligations.FinishedRunStaysFinished := by
  intro s t hfinished htick
  obtain ⟨hrun, hpc, hword⟩ := (finished_iff s).mp hfinished
  exact ⟨_, step_of_finished hrun hpc hword htick,
    (finished_iff _).mpr ⟨by rwa [ticked_run], by rwa [ticked_pc], by rwa [fetchWord_ticked, ticked_pc]⟩,
    decayed_ticked t s, sameBut_ticked t s⟩

end Sys2Proof.Cycle
end

section
/-! PROOFS. The host's other moves: the keypad writes (R25), the program load (R224) and the reset (R36, R220). -/

namespace Sys2Proof.HostMoves

open Sys2Proof.Machine Sys2Proof.Spec

theorem moveTaken_takeMove (s : State) : MoveTaken s (takeMove s) := ⟨rfl, rfl⟩

/-! ## The keypad writes -/

theorem getLsbD_keyBit (k j : Key) : (BitVec.twoPow 16 k.val).getLsbD j.val = decide (j = k) := by
  rw [BitVec.getLsbD_twoPow, decide_eq_true k.isLt, Bool.true_and]
  exact decide_eq_decide.mpr (eq_comm.trans Fin.ext_iff.symm)

theorem isPressed_press (k j : Key) (s : State) : (press k s).isPressed j = (decide (j = k) || s.isPressed j) := by
  rw [State.isPressed, press_keys, BitVec.getLsbD_or, getLsbD_keyBit, Bool.or_comm, State.isPressed]

theorem isPressed_release (k j : Key) (s : State) : (release k s).isPressed j = (!decide (j = k) && s.isPressed j) := by
  rw [State.isPressed, release_keys, BitVec.getLsbD_and, BitVec.getLsbD_not, decide_eq_true j.isLt, Bool.true_and,
    getLsbD_keyBit, Bool.and_comm, State.isPressed]

/-- KEYS is what its sixteen keys read as. -/
theorem keys_eq_of_isPressed {s t : State} (h : ∀ j : Key, t.isPressed j = s.isPressed j) : t.keys = s.keys :=
  BitVec.eq_of_getLsbD_eq fun j hj => h ⟨j, hj⟩

theorem keys_press_of_pressed {k : Key} {s : State} (h : s.isPressed k = true) : (press k s).keys = s.keys := by
  refine keys_eq_of_isPressed fun j => ?_
  rw [isPressed_press]
  by_cases hj : j = k
  · rw [hj, h, Bool.or_true]
  · rw [decide_eq_false hj, Bool.false_or]

theorem keys_release_of_free {k : Key} {s : State} (h : s.isPressed k = false) : (release k s).keys = s.keys := by
  refine keys_eq_of_isPressed fun j => ?_
  rw [isPressed_release]
  by_cases hj : j = k
  · rw [hj, h, Bool.and_false]
  · rw [decide_eq_false hj, Bool.not_false, Bool.true_and]

/-- Settles O49. -/
theorem pressAndRelease : Obligations.PressAndRelease := by
  intro k s
  refine ⟨fun hmove => ⟨press k (takeMove s), ?press, (isPressed_press k · _), moveTaken_takeMove s, ?pressFrame,
      keys_press_of_pressed (s := takeMove s)⟩,
    fun hmove => ⟨release k (takeMove s), ?release, (isPressed_release k · _), moveTaken_takeMove s, ?releaseFrame,
      keys_release_of_free (s := takeMove s)⟩⟩
  case press | release => rw [step, hmove]; rfl
  case pressFrame | releaseFrame => exact (sameBut_takeMove s).append (sameBut_setKeys _ _)

/-! ## The program load -/

/-- Settles O50: by the length of the program. -/
theorem loadCopiesTheProgram : Obligations.LoadCopiesTheProgram := by
  intro bytes s hmove hport
  have hstep : step s = loadProgram bytes (takeMove s) := by rw [step, hmove]; rfl
  rw [hstep, Cycle.loadProgram_of_pending bytes (s := takeMove s) hport]
  by_cases hlong : 3584 < bytes.length
  · rw [if_pos hlong]
    exact ⟨_, rfl, moveTaken_takeMove s,
      fun _ => ⟨rfl, (sameBut_takeMove s).append (sameBut_loadPortWrite _ .outOfSpace)⟩, fun hfits => by omega⟩
  · rw [if_neg hlong]
    exact ⟨_, rfl, moveTaken_takeMove s, fun hlong' => absurd hlong' hlong, fun _ =>
      ⟨rfl, ((sameBut_takeMove s).append (Cycle.sameBut_loadedWrite _ _)).mono (by decide),
        Memory.get_setBytes bytes s.mem 0x200⟩⟩

/-! ## The reset -/

/-- At reset memory holds the parameter `FONT`, and zero above it (R13, R42). -/
theorem get_reset (a : Nat) :
    Memory.get State.reset.mem a = if h : a < Config.font.length then Config.font[a] else 0 := by
  change Config.font.getD a 0 = _
  split
  · exact List.getD_eq_getElem _ _ _
  · exact List.getD_eq_default _ _ (by omega)

theorem reg_reset (r : Reg) : State.reset.reg r = 0 := by
  simp [State.reg, State.reset]

theorem stack_reset (j : Fin 16) : State.reset.stack[j] = 0 := by
  simp [State.reset]

/-- Settles O51: a reset is the reset state but for the host's coming moves and the random bytes. -/
theorem resetGivesTheResetState : Obligations.ResetGivesTheResetState := by
  intro s hmove
  exact ⟨applyReset (takeMove s), by rw [step, hmove]; rfl, reg_reset, rfl, rfl, stack_reset, rfl, rfl, rfl, rfl, rfl,
    fun x y => cell_clearedFb x.val y.val, fun k => BitVec.getLsbD_zero, get_reset, rfl, rfl, moveTaken_takeMove s,
    rfl, rfl⟩

end Sys2Proof.HostMoves
end

section
/-! PROOFS. Memory (`20_memory.md`) and the invariant of the machine: memory in canonical form, the bound of R15 on `PC`
and on the stack entries. -/

namespace Sys2Proof.Invariant

open Sys2Proof.Machine Sys2Proof.Spec

/-! ## Memory -/

/-- Settles O19. -/
theorem memoryReadAfterWrite : Obligations.MemoryReadAfterWrite := fun m a c b =>
  ⟨Memory.get_set m a c b, fun hwf ha => Memory.wf_set b ha hwf⟩

/-- Settles O20: in canonical form the listed entries are determined by what is read. -/
theorem canonicalMemoriesAreEqual : Obligations.CanonicalMemoriesAreEqual := by
  intro m m' hm hm' hget
  refine Memory.eq_of_lookup hm hm' fun a => ?_
  rw [Memory.lookup_of_get hm, Memory.lookup_of_get hm', hget]

/-! ## The invariant, operation by operation -/

/-- Settles O17. -/
theorem resetHasInvariant : Obligations.ResetHasInvariant :=
  ⟨rfl, by decide, fun j => by rw [HostMoves.stack_reset]; decide⟩

theorem inv_setPc {s : State} {a : Half} (h : s.Inv) (ha : a.toNat ≤ 0x10FE) : (s.setPc a).Inv := by
  obtain ⟨hmem, -, hstack⟩ := h
  exact ⟨hmem, ha, hstack⟩

theorem inv_setMem {s : State} {m : List Host.Cell} (h : s.Inv) (hm : Memory.wf m = true) : (s.setMem m).Inv := by
  obtain ⟨-, hpc, hstack⟩ := h
  exact ⟨hm, hpc, hstack⟩

/-- A fault takes `PC` back, from past the instruction to it. -/
theorem inv_raise {s : State} (c : Cause) (a : Half) (h : s.Inv) (hpc : 2 ≤ s.pc.toNat) : (raise c a s).Inv := by
  have hback : (s.pc - 2).toNat = s.pc.toNat - 2 := BitVec.toNat_sub_of_le hpc
  have ⟨_, hbound, _⟩ := h
  have hpc' : (s.setPc (s.pc - 2)).Inv := inv_setPc h (by omega)
  exact hpc'

theorem inv_skipIf {s : State} (c : Bool) (h : s.Inv) (hpc : s.pc.toNat ≤ 0x1000) : (skipIf c s).Inv := by
  cases c
  · exact h
  · exact inv_setPc h (by rw [Cycle.pc_advanced_toNat hpc]; omega)

theorem inv_withRange {len : Nat} {s ok : State} (h : s.Inv) (hpc : 2 ≤ s.pc.toNat)
    (hok : outOfRange s.i len = false → ok.Inv) : (withRange len s ok).Inv := by
  obtain ⟨hlegal, hw⟩ | ⟨-, hw⟩ := withRange_cases len s ok
  · rw [hw]; exact hok hlegal
  · rw [hw]; exact inv_raise _ _ h hpc

theorem inv_storeAtI {s : State} {bs : List Byte} (h : s.Inv) (hlegal : outOfRange s.i bs.length = false) :
    (s.storeAtI bs).Inv := by
  obtain hempty | hend := (outOfRange_eq_false_iff _ _).mp hlegal
  · exact inv_setMem h (Memory.wf_setBytes bs (.inl (List.eq_nil_of_length_eq_zero hempty)) h.1)
  · exact inv_setMem h (Memory.wf_setBytes bs (.inr hend) h.1)

theorem inv_loadRegs {s : State} (x : Reg) (bs : List Byte) (h : s.Inv) : (s.loadRegs x bs).Inv := by
  rw [State.Inv, State.loadRegs_mem, State.loadRegs_pc, State.loadRegs_stack]
  exact h

/-- CALL saves the address after itself, at most 0x1000. -/
theorem inv_call {s : State} (nnn : BitVec 12) (h : s.Inv) (hlow : 2 ≤ s.pc.toNat) (hhigh : s.pc.toNat ≤ 0x1000) :
    (call (zextNNN nnn) s).Inv := by
  by_cases hfull : s.sp.val = 16
  · rw [call_of_full _ hfull]
    exact inv_raise _ _ h hlow
  · have hroom : s.sp.val < 16 := by omega
    obtain ⟨hentries, -, hpc, -⟩ := Control.call_post_of_room (zextNNN nnn) hroom
    obtain ⟨hmem, -, hstack⟩ := h
    have hmem' : (call (zextNNN nnn) s).mem = s.mem := by rw [call_of_room _ hroom]
    refine ⟨hmem' ▸ hmem, ?pc, fun j => ?entry⟩
    case pc => rw [hpc, zextNNN_toNat]; omega
    case entry =>
      rw [hentries]
      split
      · exact hhigh
      · exact hstack j

/-- RET goes on at a saved address. -/
theorem inv_ret {s : State} (h : s.Inv) (hpc : 2 ≤ s.pc.toNat) : (ret s).Inv := by
  by_cases hempty : s.sp.val = 0
  · rw [ret_of_empty hempty]
    exact inv_raise _ _ h hpc
  · rw [ret_of_entry hempty]
    obtain ⟨hmem, -, hstack⟩ := h
    have hentry := hstack ⟨s.sp.val - 1, by omega⟩
    exact ⟨hmem, le_trans hentry (by decide), hstack⟩

/-! ## The invariant, instruction by instruction -/

/-- From past an instruction of the address space, every instruction keeps the invariant (R15). -/
theorem exec_keeps_inv (i : Instr) {s : State} (h : s.Inv) (hlow : 2 ≤ s.pc.toNat) (hhigh : s.pc.toNat ≤ 0x1000) :
    Runs i s State.Inv := by
  cases i with
  | jp nnn => exact ⟨_, rfl, inv_setPc h (by rw [zextNNN_toNat]; omega)⟩
  | jpV0 nnn => exact ⟨_, rfl, inv_setPc h (by rw [Control.jpV0Target_toNat]; omega)⟩
  | call nnn => exact ⟨_, rfl, inv_call nnn h hlow hhigh⟩
  | ret => exact ⟨_, rfl, inv_ret h hlow⟩
  | seImm | sneImm | seReg | sneReg | skp | sknp => exact ⟨_, rfl, inv_skipIf _ h hhigh⟩
  | drw x y n => exact ⟨_, Display.exec_drw x y n s, inv_withRange h hlow fun _ => h⟩
  | bcd x => exact ⟨_, MemoryOps.exec_bcd x s, inv_withRange h hlow (inv_storeAtI (bs := bcdDigits (s.reg x)) h)⟩
  | stm x => exact ⟨_, rfl, inv_withRange h hlow fun hlegal => inv_storeAtI h (by rwa [regsUpTo_length])⟩
  | ldm x => exact ⟨_, MemoryOps.exec_ldm x s, inv_withRange h hlow fun _ => inv_loadRegs x _ h⟩
  | _ => exact ⟨_, rfl, h⟩

theorem instrStep_keeps_inv {s t : State} (h : s.Inv) (hstep : instrStep s = .next t) : t.Inv := by
  obtain ⟨-, hfetch⟩ | ⟨hpc, hexec⟩ := instrStep_cases s
  · obtain rfl := Host.Outcome.next.inj (hfetch.symm.trans hstep)
    exact h
  · have hadvanced : (s.pc + 2).toNat = s.pc.toNat + 2 := Cycle.pc_advanced_toNat (by omega)
    have hinv : (s.setPc (s.pc + 2)).Inv := inv_setPc h (by omega)
    exact (exec_keeps_inv _ hinv (by rw [State.setPc_pc]; omega) (by rw [State.setPc_pc]; omega)).of_next
      (hexec.symm.trans hstep)

/-! ## The invariant, move by move -/

theorem inv_ticked (t : TickIn) {s : State} (h : s.Inv) : (Cycle.ticked t s).Inv := by
  obtain ⟨hmem, hpc, hstack⟩ := h
  refine ⟨?_, ?_, ?_⟩
  · rwa [Cycle.ticked_mem]
  · rwa [Cycle.ticked_pc]
  · rwa [Cycle.ticked_stack]

theorem afterDecay_keeps_inv {t : TickIn} {s u : State} (h : s.Inv) (htick : afterDecay t s = .next u) : u.Inv := by
  obtain ⟨rfl, -, -⟩ | ⟨r, k, -, -, rfl⟩ | ⟨-, -, hinstr⟩ := afterDecay_cases htick
  · exact h
  · exact h
  · exact instrStep_keeps_inv h hinstr

theorem loadProgram_keeps_inv {bytes : List Byte} {s t : State} (h : s.Inv) (hport : s.loadPort = .pending)
    (hload : loadProgram bytes s = .next t) : t.Inv := by
  rw [Cycle.loadProgram_of_pending bytes hport] at hload
  split at hload
  · obtain rfl := Host.Outcome.next.inj hload
    exact h
  · obtain rfl := Host.Outcome.next.inj hload
    exact inv_setMem h (Memory.wf_setBytes bytes (.inr (by omega)) h.1)

/-- Settles O18: by the host's move. -/
theorem stepKeepsInvariant : Obligations.StepKeepsInvariant := by
  intro s t h hstep
  obtain ⟨tick, -, -, htick⟩ | ⟨-, rfl⟩ | ⟨k, -, rfl⟩ | ⟨k, -, rfl⟩ | ⟨bytes, -, hport, hload⟩ := step_cases hstep
  · exact afterDecay_keeps_inv (inv_ticked tick h) htick
  · exact resetHasInvariant
  · exact h
  · exact h
  · exact loadProgram_keeps_inv (s := takeMove s) h hport hload

end Sys2Proof.Invariant
end
